-- ==== Sys2Proof/Word.lean ====
section
/-! DEFINITION. The widths of the ocrsim engine (rule R4, `00_scope.md`): bytes, register numbers and
opcode fields are what the spec treats as bits, so they are bit vectors; everything else is not. -/

namespace Sys2Proof

/-- A byte, 0 to 255, with arithmetic modulo 256 (R4, R6): every general register, PC, SP, the ports I and Q,
the spare register, every memory cell and every address is one. -/
abbrev Byte := BitVec 8

/-- A register number, the 3-bit field that selects one of S0 to S7 (R4 `REGBITS`, R11). -/
abbrev RegNum := BitVec 3

/-- An opcode, the 5-bit field in the high bits of an instruction's first byte (R4 `OPBITS`, R8). -/
abbrev Opcode := BitVec 5

end Sys2Proof
end

