-- ==== Sys2Proof/Syntax.lean ====
section
/-! DEFINITION. The instruction set as syntax: the 17 mnemonics, the six operand kinds, the operand schema of each
mnemonic (rules R53, R54, R56 of `30_encoding.md`), and `Instr`, one constructor per row of `opcode_table.json`. -/

namespace Sys2Proof

/-- The 17 mnemonics, in the order of rule R56. `inI` is the table's `in` and `outQ` its `out` (`in` is a word of Lean;
both constructors carry their port's letter). -/
inductive Mnemonic where
  | movi | mov | add | sub | and | eor | inc | dec | inI | outQ | jp | jz | jnz | rcall | ret | shl | shr
  deriving DecidableEq, Repr

/-- Every mnemonic once (`NINSTR` = 17, rule R4 and conflict C1: the enumeration wins over the count 16). -/
def Mnemonic.all : List Mnemonic :=
  [.movi, .mov, .add, .sub, .and, .eor, .inc, .dec, .inI, .outQ, .jp, .jz, .jnz, .rcall, .ret, .shl, .shr]

/-- The six operand kinds of rule R53. -/
inductive OperandKind where
  /-- `d`: destination register, `byte0[2:0]`. -/
  | d
  /-- `s`: source register, `byte1[2:0]`. -/
  | s
  /-- `b`: immediate, `byte1[7:0]`. -/
  | b
  /-- `o`: relative displacement, `byte1[7:0]`. -/
  | o
  /-- `I`: the input port, no encoding bits. -/
  | portI
  /-- `Q`: the output port, no encoding bits. -/
  | portQ
  deriving DecidableEq, Repr

/-- The operand schema of each mnemonic, the ordered operand kinds of its descriptor (R54, the `schema` column of R56). -/
def Mnemonic.schema : Mnemonic → List OperandKind
  | .movi => [.d, .b]
  | .mov => [.d, .s]
  | .add => [.d, .s]
  | .sub => [.d, .s]
  | .and => [.d, .s]
  | .eor => [.d, .s]
  | .inc => [.d]
  | .dec => [.d]
  | .inI => [.d, .portI]
  | .outQ => [.portQ, .s]
  | .jp => [.o]
  | .jz => [.o]
  | .jnz => [.o]
  | .rcall => [.o]
  | .ret => []
  | .shl => [.d]
  | .shr => [.d]

/-- An instruction of the ocrsim engine with the operands its schema names (R54, R56). The bits a schema does not name
are not part of the instruction: the decoder ignores them (R57). Every register field has the 3-bit type the encoding
gives it, so no register number is out of range (R11). -/
inductive Instr where
  /-- `movi d,b` (R100). -/
  | movi (d : RegNum) (b : Byte)
  /-- `mov d,s` (R101). -/
  | mov (d r : RegNum)
  /-- `add d,s` (R110). -/
  | add (d r : RegNum)
  /-- `sub d,s` (R111). -/
  | sub (d r : RegNum)
  /-- `and d,s` (R112). -/
  | and (d r : RegNum)
  /-- `eor d,s` (R113). -/
  | eor (d r : RegNum)
  /-- `inc d` (R114). -/
  | inc (d : RegNum)
  /-- `dec d` (R115). -/
  | dec (d : RegNum)
  /-- `in d,I` (R120). -/
  | inI (d : RegNum)
  /-- `out Q,s` (R121). -/
  | outQ (r : RegNum)
  /-- `jp o` (R130). -/
  | jp (o : Byte)
  /-- `jz o` (R131). -/
  | jz (o : Byte)
  /-- `jnz o` (R132). -/
  | jnz (o : Byte)
  /-- `rcall o` (R133). -/
  | rcall (o : Byte)
  /-- `ret` (R134). -/
  | ret
  /-- `shl d` (R140). -/
  | shl (d : RegNum)
  /-- `shr d` (R141). -/
  | shr (d : RegNum)
  deriving DecidableEq, Repr

/-- The mnemonic of an instruction. -/
def Instr.mnemonic : Instr → Mnemonic
  | .movi _ _ => .movi
  | .mov _ _ => .mov
  | .add _ _ => .add
  | .sub _ _ => .sub
  | .and _ _ => .and
  | .eor _ _ => .eor
  | .inc _ => .inc
  | .dec _ => .dec
  | .inI _ => .inI
  | .outQ _ => .outQ
  | .jp _ => .jp
  | .jz _ => .jz
  | .jnz _ => .jnz
  | .rcall _ => .rcall
  | .ret => .ret
  | .shl _ => .shl
  | .shr _ => .shr

end Sys2Proof
end

