-- ==== Sys2Proof/Config.lean ====
section
/-! DEFINITION. What the source leaves to the implementer: the open parameters of rule R5 (`00_scope.md`) as one
record. The values this machine runs with stand where a repair can mend them: `defaultOpMap` in `Decode.lean`,
`machineConfig` in `Machine/Ops.lean`. `INPUT` (port I) is no field: the model takes the held-byte reading of decision
D9, and a run with inputs is a list of host actions (`Machine/Platform.lean`). -/

namespace Sys2Proof

/-- `OPMAP` (R5, R56, decision D1): a 5-bit opcode for each mnemonic. -/
abbrev OpMap := Mnemonic → Opcode

/-- `ILLEGAL_POLICY` (R5, R58, decision D3): what an unmapped opcode does. -/
inductive IllegalPolicy where
  /-- The default: IllegalOpcode (R150). -/
  | fault
  /-- The alternative the source's §7 allows: advance PC by 2 and nothing else (R151). -/
  | nop
  deriving DecidableEq, Repr

/-- The configuration of an engine (R5). It is fixed while the engine runs and is not part of its state (R26). -/
structure Config where
  /-- `OPMAP`. -/
  opMap : OpMap
  /-- `SHIFT_INVERTED` (decision D2): `true` when `shl` shifts right and `shr` shifts left. -/
  shiftInverted : Bool
  /-- `ILLEGAL_POLICY`. -/
  illegalPolicy : IllegalPolicy
  /-- `HOST_EDITS` (decision D12): whether the host may change memory or registers between steps. -/
  hostEdits : Bool

end Sys2Proof
end

