-- ==== Sys2Proof/WellFormed.lean ====
section
/-! DEFINITION. What is checked of the terms the engine is given: an opcode map (R56: the patterns are unique), a program
image (R171: whole instructions, at most 256 bytes), and an instruction term written as a mnemonic and a list of plain
numbers (R53, R54: the operands fit the schema, register numbers are 0 to 7, immediates and displacements are bytes). -/

namespace Sys2Proof

/-- An opcode map is well formed when its 17 patterns are distinct, that is when it is injective
(R56: "unique 5-bit patterns"). -/
abbrev OpMap.wf (m : OpMap) : Prop := (Mnemonic.all.map m).Nodup

/-- A program image is well formed when it is a whole number of two-byte instructions and fits the memory: `2n` bytes
with `0 ≤ n ≤ 128` (R171). -/
abbrev imageWf (image : List Byte) : Prop := image.length % 2 = 0 ∧ image.length ≤ 256

/-- An operand as a term gives it, before its numbers are checked. -/
inductive RawOperand where
  | reg (n : Nat)
  | imm (n : Nat)
  | disp (n : Nat)
  | portI
  | portQ
  deriving DecidableEq, Repr

/-- An instruction term: a mnemonic and its operands in schema order. -/
structure RawInstr where
  mnemonic : Mnemonic
  operands : List RawOperand
  deriving DecidableEq, Repr

/-- Whether an operand is of the kind a schema asks for (R53). -/
def RawOperand.fits : OperandKind → RawOperand → Bool
  | .d, .reg _ => true
  | .s, .reg _ => true
  | .b, .imm _ => true
  | .o, .disp _ => true
  | .portI, .portI => true
  | .portQ, .portQ => true
  | _, _ => false

/-- Whether an operand's number is one its encoding bits can hold: a register number is 0 to 7, an immediate or a
displacement 0 to 255 (R53, R55). -/
def RawOperand.inRange : RawOperand → Bool
  | .reg n => decide (n < 8)
  | .imm n => decide (n < 256)
  | .disp n => decide (n < 256)
  | .portI => true
  | .portQ => true

/-- Check 1: as many operands as the schema names. -/
def RawInstr.arityOk (r : RawInstr) : Bool := r.operands.length == r.mnemonic.schema.length

/-- Check 2: each operand of the kind the schema names in its place. -/
def RawInstr.kindsOk (r : RawInstr) : Bool :=
  (r.mnemonic.schema.zip r.operands).all fun p => RawOperand.fits p.1 p.2

/-- Check 3: every number in range. -/
def RawInstr.rangesOk (r : RawInstr) : Bool := r.operands.all RawOperand.inRange

/-- An instruction term is well formed when it passes the three checks. -/
def RawInstr.wf (r : RawInstr) : Bool := r.arityOk && r.kindsOk && r.rangesOk

/-- An instruction as a term. -/
def Instr.raw : Instr → RawInstr
  | .movi d b => ⟨.movi, [.reg d.toNat, .imm b.toNat]⟩
  | .mov d r => ⟨.mov, [.reg d.toNat, .reg r.toNat]⟩
  | .add d r => ⟨.add, [.reg d.toNat, .reg r.toNat]⟩
  | .sub d r => ⟨.sub, [.reg d.toNat, .reg r.toNat]⟩
  | .and d r => ⟨.and, [.reg d.toNat, .reg r.toNat]⟩
  | .eor d r => ⟨.eor, [.reg d.toNat, .reg r.toNat]⟩
  | .inc d => ⟨.inc, [.reg d.toNat]⟩
  | .dec d => ⟨.dec, [.reg d.toNat]⟩
  | .inI d => ⟨.inI, [.reg d.toNat, .portI]⟩
  | .outQ r => ⟨.outQ, [.portQ, .reg r.toNat]⟩
  | .jp o => ⟨.jp, [.disp o.toNat]⟩
  | .jz o => ⟨.jz, [.disp o.toNat]⟩
  | .jnz o => ⟨.jnz, [.disp o.toNat]⟩
  | .rcall o => ⟨.rcall, [.disp o.toNat]⟩
  | .ret => ⟨.ret, []⟩
  | .shl d => ⟨.shl, [.reg d.toNat]⟩
  | .shr d => ⟨.shr, [.reg d.toNat]⟩

/-- An instruction is well formed when its term is. Every `Instr` is (`Laws.wf_of_instr`): its operand types already
carry the bounds. -/
def Instr.wf (i : Instr) : Bool := i.raw.wf

/-- The instruction a well-formed term stands for; `none` for a term the checks refuse. -/
def RawInstr.toInstr (r : RawInstr) : Option Instr :=
  if r.wf then
    match r.mnemonic, r.operands with
    | .movi, [.reg d, .imm b] => some (.movi (.ofNat 3 d) (.ofNat 8 b))
    | .mov, [.reg d, .reg s] => some (.mov (.ofNat 3 d) (.ofNat 3 s))
    | .add, [.reg d, .reg s] => some (.add (.ofNat 3 d) (.ofNat 3 s))
    | .sub, [.reg d, .reg s] => some (.sub (.ofNat 3 d) (.ofNat 3 s))
    | .and, [.reg d, .reg s] => some (.and (.ofNat 3 d) (.ofNat 3 s))
    | .eor, [.reg d, .reg s] => some (.eor (.ofNat 3 d) (.ofNat 3 s))
    | .inc, [.reg d] => some (.inc (.ofNat 3 d))
    | .dec, [.reg d] => some (.dec (.ofNat 3 d))
    | .inI, [.reg d, .portI] => some (.inI (.ofNat 3 d))
    | .outQ, [.portQ, .reg s] => some (.outQ (.ofNat 3 s))
    | .jp, [.disp o] => some (.jp (.ofNat 8 o))
    | .jz, [.disp o] => some (.jz (.ofNat 8 o))
    | .jnz, [.disp o] => some (.jnz (.ofNat 8 o))
    | .rcall, [.disp o] => some (.rcall (.ofNat 8 o))
    | .ret, [] => some .ret
    | .shl, [.reg d] => some (.shl (.ofNat 3 d))
    | .shr, [.reg d] => some (.shr (.ofNat 3 d))
    | _, _ => none
  else none

end Sys2Proof
end

