-- ==== Sys2Proof/Decode.lean ====
section
/-! DEFINITION. Decoding two bytes to an instruction, total and rejecting by name (rules R51, R52, R56 to R58, R61 of
`30_encoding.md`), and the encoder that writes an instruction's canonical bytes (R54, R60). Both take the opcode map as
a parameter; the names without `Under` use the spec's default map. -/

namespace Sys2Proof

/-- The default `OPMAP` of rule R56: the mnemonics numbered 0 to 16 in the order the source lists them. The source gives
no opcode number at all; this is decision D1 of the spec. DESIGN CHOICE (assumption 1), unsafe. -/
def defaultOpMap : OpMap
  | .movi => 0b00000
  | .mov => 0b00001
  | .add => 0b00010
  | .sub => 0b00011
  | .and => 0b00100
  | .eor => 0b00101
  | .inc => 0b00110
  | .dec => 0b00111
  | .inI => 0b01000
  | .outQ => 0b01001
  | .jp => 0b01010
  | .jz => 0b01011
  | .jnz => 0b01100
  | .rcall => 0b01101
  | .ret => 0b01110
  | .shl => 0b01111
  | .shr => 0b10000

/-- `opc = byte0[7:3]` (R51, R52). -/
def opcodeField (byte0 : Byte) : Opcode := byte0.extractLsb' 3 5

/-- `d = byte0[2:0]`, the destination register field (R51, R52). -/
def destField (byte0 : Byte) : RegNum := byte0.extractLsb' 0 3

/-- `s = byte1[2:0]`, the source register field (R51, R52). -/
def srcField (byte1 : Byte) : RegNum := byte1.extractLsb' 0 3

/-- The descriptor lookup: the mnemonic whose opcode is `opc`, if there is one (R56, R58). -/
def lookupOpcode (m : OpMap) (opc : Opcode) : Option Mnemonic := Mnemonic.all.find? fun k => m k == opc

/-- The instruction of a descriptor with the extracted fields; each uses the fields its schema names and ignores the
rest (R52, R54). -/
def instrOf (k : Mnemonic) (d r : RegNum) (byte1 : Byte) : Instr :=
  match k with
  | .movi => .movi d byte1
  | .mov => .mov d r
  | .add => .add d r
  | .sub => .sub d r
  | .and => .and d r
  | .eor => .eor d r
  | .inc => .inc d
  | .dec => .dec d
  | .inI => .inI d
  | .outQ => .outQ r
  | .jp => .jp byte1
  | .jz => .jz byte1
  | .jnz => .jnz byte1
  | .rcall => .rcall byte1
  | .ret => .ret
  | .shl => .shl d
  | .shr => .shr d

/-- What decoding yields (R61): one of the 17 instructions, or the verdict "unmapped opcode". -/
inductive Decoded where
  | instr (i : Instr)
  | unmapped (opc : Opcode)
  deriving DecidableEq, Repr

/-- The decoder, under an opcode map: total on every pair of bytes (R52, R58, R61). -/
def decodeUnder (m : OpMap) (byte0 byte1 : Byte) : Decoded :=
  match lookupOpcode m (opcodeField byte0) with
  | some k => .instr (instrOf k (destField byte0) (srcField byte1) byte1)
  | none => .unmapped (opcodeField byte0)

/-- The decoder under the default opcode map. -/
def decode (byte0 byte1 : Byte) : Decoded := decodeUnder defaultOpMap byte0 byte1

/-- `byte0` of an instruction: its opcode, with a register number or 0 in the low 3 bits (R51). -/
def byte0Of (opc : Opcode) (d : RegNum) : Byte := opc ++ d

/-- `byte1` that holds a source register number, the ignored bits 0 (R53, R60). -/
def byte1OfSrc (r : RegNum) : Byte := 0#5 ++ r

/-- The encoder, under an opcode map: the canonical bytes of an instruction, `byte0` first (R54, R60). -/
def encodeUnder (m : OpMap) (i : Instr) : Byte × Byte :=
  match i with
  | .movi d b => (byte0Of (m .movi) d, b)
  | .mov d r => (byte0Of (m .mov) d, byte1OfSrc r)
  | .add d r => (byte0Of (m .add) d, byte1OfSrc r)
  | .sub d r => (byte0Of (m .sub) d, byte1OfSrc r)
  | .and d r => (byte0Of (m .and) d, byte1OfSrc r)
  | .eor d r => (byte0Of (m .eor) d, byte1OfSrc r)
  | .inc d => (byte0Of (m .inc) d, 0)
  | .dec d => (byte0Of (m .dec) d, 0)
  | .inI d => (byte0Of (m .inI) d, 0)
  | .outQ r => (byte0Of (m .outQ) 0, byte1OfSrc r)
  | .jp o => (byte0Of (m .jp) 0, o)
  | .jz o => (byte0Of (m .jz) 0, o)
  | .jnz o => (byte0Of (m .jnz) 0, o)
  | .rcall o => (byte0Of (m .rcall) 0, o)
  | .ret => (byte0Of (m .ret) 0, 0)
  | .shl d => (byte0Of (m .shl) d, 0)
  | .shr d => (byte0Of (m .shr) d, 0)

/-- The encoder under the default opcode map. -/
def encode (i : Instr) : Byte × Byte := encodeUnder defaultOpMap i

/-- The bytes of a program, each instruction's `byte0` then its `byte1`, from address 0 (R51, R171). -/
def imageOf (m : OpMap) : List Instr → List Byte
  | [] => []
  | i :: p => (encodeUnder m i).1 :: (encodeUnder m i).2 :: imageOf m p

/-- The displacement that makes a transfer at address `patch` reach `target` (R70):
`(target − patch − 2) mod 256`. -/
def displacementTo (patch target : Byte) : Byte := target - patch - 2

/-- The two bytes of a table word `W = byte0 ++ byte1` (R7), the bits at and above `nbits` taken as 0: the table numbers
`W` with `byte0` in bits 15 to 8, and `byte0` lies at the lower address (R30). Assumption 15. -/
def tableBytes (nbits w : Nat) : Byte × Byte :=
  let v : BitVec 16 := BitVec.ofNat 16 (w % 2 ^ nbits)
  (v.extractLsb' 8 8, v.extractLsb' 0 8)

/-- The instruction the decoder reads from the table word `w`; `none` where it answers "unmapped opcode". -/
def decodeTableWord (nbits w : Nat) : Option Instr :=
  match decode (tableBytes nbits w).1 (tableBytes nbits w).2 with
  | .instr i => some i
  | .unmapped _ => none

end Sys2Proof
end

