-- ==== Sys2Proof/Machine/State.lean ====
section
/-! DEFINITION. The state of the engine, all of the summary table of `10_state.md` (rules R10 to R26), as plain data; the
reasons a step can stop; and the state right after reset (R25, R170). The instruction-boundary markers are not engine
state (R24). -/

namespace Sys2Proof.Machine

/-- The 256-byte memory (R22), as the cells that differ from what an unlisted address reads as, in rising order of
address. -/
abbrev Memory := List Host.Cell

/-- What an address that the list does not name reads as: 0, the reset contents of memory (R25 "memory zeroed"). -/
def unlistedByte : Byte := 0

/-- The canonical form of a memory: addresses strictly rising, every address one of the 256 that exist (R22), and no
entry equal to what an unlisted address reads as. Equal memories are then equal lists. -/
abbrev Memory.wf (m : Memory) : Prop :=
  m.Pairwise (fun c c' => c.1 < c'.1) ∧ ∀ c ∈ m, c.1 < 256 ∧ c.2 ≠ unlistedByte

/-- The engine's state. -/
structure State where
  /-- The general registers S0 to S7 (R10), none of them hardwired. -/
  regs : Vector Byte 8
  /-- The program counter (R12). -/
  pc : Byte
  /-- The stack pointer (R15): it points at the most recently pushed byte. -/
  sp : Byte
  /-- The zero flag Z, the only flag (R16). -/
  zero : Bool
  /-- The input port I, a byte that only the host writes, between steps (R18, decision D9, assumption 9). -/
  portI : Byte
  /-- The output port Q, the last value written by `out` (R19). -/
  portQ : Byte
  /-- The spare byte register SPARE, which no instruction reads or writes (R20). -/
  spare : Byte
  /-- The memory (R22). -/
  mem : Memory
  /-- The fault latch FAULT (R23): set by IllegalOpcode, cleared only by reset. -/
  fault : Bool
  deriving DecidableEq, Repr

/-- Why a step stops. Both are the fault outcome of rule R153, and both are safe: the engine itself does nothing more. -/
inductive Fault where
  /-- IllegalOpcode (R150): the step fetched `byte0` at `pc` and its opcode is unmapped. Raised by `raiseIllegalOpcode`
  for `step`, never by an instruction; the state is as before the step, but for the latch FAULT (`State.latchFault`,
  which `cycle` applies). Safe: the engine goes no further either. -/
  | illegalOpcode (pc byte0 : Byte)
  /-- The latch FAULT was already set when the step began (R80 first line, R153): nothing is read and nothing changes.
  Raised by `stepWhenFaulted` for `step`. Safe: the engine does nothing until a reset. -/
  | faultLatched
  deriving DecidableEq, Repr

/-- Why a step has no meaning in the model. -/
inductive Refusal where
  /-- An instruction that has no meaning yet, by its mnemonic. Raised by no arm of `exec`: every instruction has its
  meaning. Safe: the model stops. -/
  | notModelled (mnemonic : String)
  deriving DecidableEq, Repr

/-- The state right after reset (R25, R170): every register, both ports, SPARE, PC and SP 0, the flag and the latch
false, memory zeroed. No reset value is open in the spec; I, Q and SPARE are 0 by decision D20 (assumption 11). -/
def State.reset : State where
  regs := Vector.replicate 8 0
  pc := 0
  sp := 0
  zero := false
  portI := 0
  portQ := 0
  spare := 0
  mem := []
  fault := false

end Sys2Proof.Machine
end

