-- ==== Sys2Proof/Machine/Ops.lean ====
section
/-! DEFINITION. The named operations every meaning is built from: memory bytes (rules R6, R33, R34), general registers
(R11), the special registers, the stack (R136), the fetch (R44, R80), and taking the one exception (R150, R151, R153).
There is no return from it but a reset (R154). -/

namespace Sys2Proof.Machine

/-- The configuration this machine runs with: the defaults of rule R5 (assumptions 1, 2, 4, 13). -/
def machineConfig : Config where
  opMap := defaultOpMap
  shiftInverted := true
  illegalPolicy := .fault
  hostEdits := false

/-! ## Memory -/

/-- The byte a cell list gives an address. -/
def Memory.read (m : Memory) (a : Byte) : Byte :=
  match m with
  | [] => unlistedByte
  | c :: m' => if c.1 = a.toNat then c.2 else Memory.read m' a

/-- The cells without those of one address. -/
def Memory.erase (m : Memory) (a : Byte) : Memory := m.filter fun c => c.1 != a.toNat

/-- A cell put in its place in the rising order. -/
def Memory.insert (m : Memory) (c : Host.Cell) : Memory :=
  match m with
  | [] => [c]
  | c' :: m' => if c.1 < c'.1 then c :: c' :: m' else c' :: Memory.insert m' c

/-- A memory with one byte replaced (R33: "A write replaces the byte and changes nothing else"), in canonical form: the
value an unlisted address reads as takes the entry out. -/
def Memory.write (m : Memory) (a v : Byte) : Memory :=
  if v = unlistedByte then m.erase a else (m.erase a).insert (a.toNat, v)

/-- `MemRead(a, 1)` (R6, R33): total, with no side effect. -/
def State.readMem (s : State) (a : Byte) : Byte := s.mem.read a

/-- `MemWrite(a, 1, v)` (R6, R33): total. -/
def State.writeMem (s : State) (a v : Byte) : State := { s with mem := s.mem.write a v }

/-! ## Registers -/

/-- `x[k]` (R6, R10, R11). -/
def State.readReg (s : State) (k : RegNum) : Byte := s.regs[k.toNat]'k.isLt

/-- `x[k] <- v` (R6, R10, R11). -/
def State.writeReg (s : State) (k : RegNum) (v : Byte) : State := { s with regs := s.regs.set k.toNat v k.isLt }

/-- `pc <- v`. -/
def State.setPc (s : State) (v : Byte) : State := { s with pc := v }

/-- `sp <- v`. -/
def State.setSp (s : State) (v : Byte) : State := { s with sp := v }

/-- `Z <- z`. -/
def State.setZero (s : State) (z : Bool) : State := { s with zero := z }

/-- `Q <- v` (R19). -/
def State.setPortQ (s : State) (v : Byte) : State := { s with portQ := v }

/-- `I <- v`, an action of the host, never of the engine (R18, R179). -/
def State.setPortI (s : State) (v : Byte) : State := { s with portI := v }

/-! ## The stack -/

/-- Push one byte: decrement SP, then write at the new SP (R136). -/
def State.push (s : State) (v : Byte) : State := (s.setSp (s.sp - 1)).writeMem (s.sp - 1) v

/-- The byte a pop yields: the one at SP (R136). -/
def State.top (s : State) : Byte := s.readMem s.sp

/-- What a pop leaves: SP incremented, the popped byte still in memory (R134, R136). -/
def State.dropTop (s : State) : State := s.setSp (s.sp + 1)

/-! ## Fetch -/

/-- The opcode byte, at PC (R30, R44, R80). -/
def State.fetchByte0 (s : State) : Byte := s.readMem s.pc

/-- The operand byte, at the next address modulo 256 (R30, R34, R44, R80; the wrap at 255 is decision D5, assumption 6). -/
def State.fetchByte1 (s : State) : Byte := s.readMem (s.pc + 1)

/-- What the two bytes at PC decode to, under an opcode map. Both bytes are read whatever the opcode: reads have no side
effect, so R44 allows it (assumption 24). -/
def State.fetchUnder (m : OpMap) (s : State) : Decoded := decodeUnder m s.fetchByte0 s.fetchByte1

/-- What the two bytes at PC decode to. -/
def State.fetch (s : State) : Decoded := s.fetchUnder machineConfig.opMap

/-- PC moved past the instruction, before its effect (R12, R80). -/
def State.advancePc (s : State) : State := s.setPc (s.pc + 2)

/-- `s` with the two bytes of an instruction stored where the next step fetches them. -/
def State.placeInstr (s : State) (bytes : Byte × Byte) : State :=
  (s.writeMem s.pc bytes.1).writeMem (s.pc + 1) bytes.2

/-! ## The exception -/

/-- The state IllegalOpcode leaves: FAULT set, nothing else written; no handler, no saved PC, no mode (R150, R153). Only
`State.reset` clears the latch (R154). -/
def State.latchFault (s : State) : State := { s with fault := true }

/-- The outcome of a step that fetches an unmapped opcode: IllegalOpcode with the address and the byte as its information
(R150, R153), or under the policy `nop` an advance of PC and nothing else (R151). -/
def raiseIllegalOpcode (policy : IllegalPolicy) (s : State) : Host.Outcome State Fault Refusal :=
  match policy with
  | .fault => .fault (.illegalOpcode s.pc s.fetchByte0)
  | .nop => .next s.advancePc

/-- The outcome of a step while FAULT is set: the engine returns at once, reads nothing and changes nothing (R80 first
line, R153). -/
def stepWhenFaulted (_s : State) : Host.Outcome State Fault Refusal := .fault .faultLatched

end Sys2Proof.Machine
end

