-- ==== Sys2Proof/Machine/Operands.lean ====
section
/-! DEFINITION. The six operand forms of rule R53 (`30_encoding.md`) as the values they stand for while an effect runs,
PC already advanced (R12, R80). -/

namespace Sys2Proof.Machine

/-- Operand kind `d` read: the destination register is the first source of the arithmetic, logic and shift instructions
too (R11, conflict C5). -/
def operandD (s : State) (d : RegNum) : Byte := s.readReg d

/-- Operand kind `s`: the source register (R11, R53). -/
def operandS (s : State) (r : RegNum) : Byte := s.readReg r

/-- Operand kind `b`: the immediate, the operand byte whole, neither extended nor scaled (R55). -/
def operandB (b : Byte) : Byte := b

/-- Operand kind `o`: the target of a relative transfer, `(pc + byte1) mod 256` with `pc` the post-advance PC (R55,
R135). Reading the displacement as signed gives the same target. -/
def operandO (s : State) (o : Byte) : Byte := s.pc + o

/-- Operand kind `I`: the input port, read without side effect (R18, R120). -/
def operandI (s : State) : Byte := s.portI

/-- Operand kind `Q`: the output port, written (R19, R121). -/
def writeOperandQ (s : State) (v : Byte) : State := s.setPortQ v

end Sys2Proof.Machine
end

