-- ==== Sys2Proof/Machine/Flags.lean ====
section
/-! DEFINITION. The zero flag's computation, the only flag computation of the engine (rules R16, R17, R116). -/

namespace Sys2Proof.Machine

/-- Whether a stored byte sets Z: true when it is 0, false when it is 1 to 255 (R116). -/
def zeroFlagOf (v : Byte) : Bool := v == 0

/-- "Recompute zero flag from register d": from the stored byte, after it has been written (R116). -/
def State.recomputeZero (s : State) (d : RegNum) : State := s.setZero (zeroFlagOf (s.readReg d))

/-- Write a result to the destination register and recompute Z from it (R116): the common end of add, sub, and, eor,
inc, dec, in, shl and shr (R17). -/
def State.writeResult (s : State) (d : RegNum) (v : Byte) : State := (s.writeReg d v).recomputeZero d

end Sys2Proof.Machine
end

