-- ==== Sys2Proof/Machine/Alu.lean ====
section
/-! DEFINITION. The arithmetic and logic instructions add, sub, and, eor, inc, dec (`42_alu.md`): 8-bit results modulo
256, no carry, Z from the stored byte (R116, R117). -/

namespace Sys2Proof.Machine

/-- `add d,s` (R110). -/
def execAdd (d r : RegNum) (s : State) : Host.Outcome State Fault Refusal :=
  .next (s.writeResult d (operandD s d + operandS s r))

/-- `sub d,s` (R111): destination minus source. -/
def execSub (d r : RegNum) (s : State) : Host.Outcome State Fault Refusal :=
  .next (s.writeResult d (operandD s d - operandS s r))

/-- `and d,s` (R112). -/
def execAnd (d r : RegNum) (s : State) : Host.Outcome State Fault Refusal :=
  .next (s.writeResult d (operandD s d &&& operandS s r))

/-- `eor d,s` (R113). -/
def execEor (d r : RegNum) (s : State) : Host.Outcome State Fault Refusal :=
  .next (s.writeResult d (operandD s d ^^^ operandS s r))

/-- `inc d` (R114). -/
def execInc (d : RegNum) (s : State) : Host.Outcome State Fault Refusal :=
  .next (s.writeResult d (operandD s d + 1))

/-- `dec d` (R115). -/
def execDec (d : RegNum) (s : State) : Host.Outcome State Fault Refusal :=
  .next (s.writeResult d (operandD s d - 1))

end Sys2Proof.Machine
end

