-- ==== Sys2Proof/Machine/Control.lean ====
section
/-! DEFINITION. The control transfers jp, jz, jnz, rcall, ret (`44_control.md`), PC already advanced. -/

namespace Sys2Proof.Machine

/-- `pc <- target` when the condition holds; otherwise PC stays past the instruction. -/
def State.jumpIf (s : State) (c : Bool) (o : Byte) : State := if c then s.setPc (operandO s o) else s

/-- `jp o` (R130). -/
def execJp (o : Byte) (s : State) : Host.Outcome State Fault Refusal :=
  .next (s.jumpIf true o)

/-- `jz o` (R131): jumps when Z is true. -/
def execJz (o : Byte) (s : State) : Host.Outcome State Fault Refusal :=
  .next (s.jumpIf s.zero o)

/-- `jnz o` (R132): jumps when Z is false. -/
def execJnz (o : Byte) (s : State) : Host.Outcome State Fault Refusal :=
  .next (s.jumpIf (!s.zero) o)

/-- `rcall o` (R133): push the post-advance PC, then add the displacement to it. -/
def execRcall (o : Byte) (s : State) : Host.Outcome State Fault Refusal :=
  .next ((s.push s.pc).jumpIf true o)

/-- `ret` (R134): PC from the byte at SP, then SP incremented; the advanced PC is discarded. -/
def execRet (s : State) : Host.Outcome State Fault Refusal :=
  .next ((s.setPc s.top).dropTop)

end Sys2Proof.Machine
end

