-- ==== Sys2Proof/Machine/Move.lean ====
section
/-! DEFINITION. The move instructions movi and mov (`41_move.md`). Each meaning runs on the state whose PC has been
advanced (R80). -/

namespace Sys2Proof.Machine

/-- `movi d,b` (R100): the immediate to register d; Z is not written. -/
def execMovi (d : RegNum) (b : Byte) (s : State) : Host.Outcome State Fault Refusal :=
  .next (s.writeReg d (operandB b))

/-- `mov d,s` (R101): register s to register d; Z is not written. -/
def execMov (d r : RegNum) (s : State) : Host.Outcome State Fault Refusal :=
  .next (s.writeReg d (operandS s r))

end Sys2Proof.Machine
end

