-- ==== Sys2Proof/Machine/Port.lean ====
section
/-! DEFINITION. The port instructions in and out (`43_io.md`). -/

namespace Sys2Proof.Machine

/-- `in d,I` (R120): the input port to register d, Z from it; the port is not changed. -/
def execIn (d : RegNum) (s : State) : Host.Outcome State Fault Refusal :=
  .next (s.writeResult d (operandI s))

/-- `out Q,s` (R121): register s to the output port; Z is not written. -/
def execOut (r : RegNum) (s : State) : Host.Outcome State Fault Refusal :=
  .next (writeOperandQ s (operandS s r))

end Sys2Proof.Machine
end

