-- ==== Sys2Proof/Machine/Shift.lean ====
section
/-! DEFINITION. The shift instructions shl and shr (`45_shift.md`): one bit position, zero fill, the lost bit kept
nowhere (R142, decisions D2 and D4, assumptions 2 and 3). -/

namespace Sys2Proof.Machine

/-- `LEFT1` (R142): bits [6:0] move to [7:1], bit 0 becomes 0. -/
def left1 (v : Byte) : Byte := v <<< 1

/-- `RIGHT1` (R142): bits [7:1] move to [6:0], bit 7 becomes 0. -/
def right1 (v : Byte) : Byte := v >>> 1

/-- The effect of `shl d` under a setting of `SHIFT_INVERTED` (R140). -/
def State.shlUnder (inverted : Bool) (d : RegNum) (s : State) : State :=
  s.writeResult d (if inverted then right1 (operandD s d) else left1 (operandD s d))

/-- The effect of `shr d` under a setting of `SHIFT_INVERTED` (R141). -/
def State.shrUnder (inverted : Bool) (d : RegNum) (s : State) : State :=
  s.writeResult d (if inverted then left1 (operandD s d) else right1 (operandD s d))

/-- `shl d` (R140): with the default `SHIFT_INVERTED = true` it shifts right. -/
def execShl (d : RegNum) (s : State) : Host.Outcome State Fault Refusal :=
  .next (s.shlUnder machineConfig.shiftInverted d)

/-- `shr d` (R141): with the default `SHIFT_INVERTED = true` it shifts left. -/
def execShr (d : RegNum) (s : State) : Host.Outcome State Fault Refusal :=
  .next (s.shrUnder machineConfig.shiftInverted d)

end Sys2Proof.Machine
end

