-- ==== Sys2Proof/Machine/Dispatch.lean ====
section
/-! DEFINITION. The effect of each instruction (rule R81 of `40_step_cycle.md`), on the state whose PC has been advanced
past it (R80). -/

namespace Sys2Proof.Machine

def exec (i : Instr) (s : State) : Host.Outcome State Fault Refusal :=
  match i with
  | .movi d b => Sys2Proof.Machine.execMovi d b s
  | .mov d r => Sys2Proof.Machine.execMov d r s
  | .add d r => Sys2Proof.Machine.execAdd d r s
  | .sub d r => Sys2Proof.Machine.execSub d r s
  | .and d r => Sys2Proof.Machine.execAnd d r s
  | .eor d r => Sys2Proof.Machine.execEor d r s
  | .inc d => Sys2Proof.Machine.execInc d s
  | .dec d => Sys2Proof.Machine.execDec d s
  | .inI d => Sys2Proof.Machine.execIn d s
  | .outQ r => Sys2Proof.Machine.execOut r s
  | .jp o => Sys2Proof.Machine.execJp o s
  | .jz o => Sys2Proof.Machine.execJz o s
  | .jnz o => Sys2Proof.Machine.execJnz o s
  | .rcall o => Sys2Proof.Machine.execRcall o s
  | .ret => Sys2Proof.Machine.execRet s
  | .shl d => Sys2Proof.Machine.execShl d s
  | .shr d => Sys2Proof.Machine.execShr d s

end Sys2Proof.Machine
end

