-- ==== Sys2Proof/Machine/Step.lean ====
section
/-! DEFINITION. One step of the engine (rule R80 of `40_step_cycle.md`): its three outcomes are the next state, the fault
of R150 and R153, and a refusal (none is left). -/

namespace Sys2Proof.Machine

/-- One fetch/decode/execute cycle (R80): nothing while FAULT is set; IllegalOpcode where the opcode is unmapped; else PC
is advanced past the two bytes and the effect runs. -/
def step (s : State) : Host.Outcome State Fault Refusal :=
  if s.fault then stepWhenFaulted s
  else
    match s.fetch with
    | .instr i => exec i s.advancePc
    | .unmapped _ => raiseIllegalOpcode machineConfig.illegalPolicy s

/-- `s` with the instruction of the table word `w` stored at PC, where `step` fetches (R80, assumption 10). Nothing else
changes; a set latch FAULT stays set, since only a reset clears it (R154). -/
def State.withFetchWord (s : State) (nbits w : Nat) : State := s.placeInstr (tableBytes nbits w)

/-- The next state of an outcome that has one. -/
def nextState : Host.Outcome State Fault Refusal → Option State
  | .next s => some s
  | .fault _ => none
  | .refused _ => none

/-- The fault of an outcome that is one. -/
def faultOf : Host.Outcome State Fault Refusal → Option Fault
  | .next _ => none
  | .fault r => some r
  | .refused _ => none

end Sys2Proof.Machine
end

