-- ==== Sys2Proof/Machine/Configured.lean ====
section
/-! DEFINITION. The engine under any configuration of rule R5: every opcode map, both shift settings, both policies for an
unmapped opcode. `Laws.stepUnder_machineConfig` shows that `step` is this one at the defaults; a claim about the engine
that is stated over `stepUnder` does not rest on the spec's own numbers. -/

namespace Sys2Proof.Machine

/-- The effect of an instruction under a configuration: only the shifts depend on it (R5, R142). -/
def execUnder (cfg : Config) (i : Instr) (s : State) : Host.Outcome State Fault Refusal :=
  match i with
  | .movi d b => execMovi d b s
  | .mov d r => execMov d r s
  | .add d r => execAdd d r s
  | .sub d r => execSub d r s
  | .and d r => execAnd d r s
  | .eor d r => execEor d r s
  | .inc d => execInc d s
  | .dec d => execDec d s
  | .inI d => execIn d s
  | .outQ r => execOut r s
  | .jp o => execJp o s
  | .jz o => execJz o s
  | .jnz o => execJnz o s
  | .rcall o => execRcall o s
  | .ret => execRet s
  | .shl d => .next (s.shlUnder cfg.shiftInverted d)
  | .shr d => .next (s.shrUnder cfg.shiftInverted d)

/-- One step under a configuration (R80, R151). -/
def stepUnder (cfg : Config) (s : State) : Host.Outcome State Fault Refusal :=
  if s.fault then stepWhenFaulted s
  else
    match s.fetchUnder cfg.opMap with
    | .instr i => execUnder cfg i s.advancePc
    | .unmapped _ => raiseIllegalOpcode cfg.illegalPolicy s

/-- A step as the engine's mutation of its state, latch and all (R80 "no return value beyond the mutated state", R150,
R153): the next state, or the same state with FAULT set, or no change while FAULT is set. -/
def cycleUnder (cfg : Config) (s : State) : State :=
  match stepUnder cfg s with
  | .next t => t
  | .fault (.illegalOpcode _ _) => s.latchFault
  | .fault .faultLatched => s
  | .refused _ => s

/-- `cycleUnder` at the defaults. -/
def cycle (s : State) : State := cycleUnder machineConfig s

end Sys2Proof.Machine
end

