-- ==== Sys2Proof/Machine/Platform.lean ====
section
/-! DEFINITION. What the host may do between steps (rule R179 of `70_reset_and_hazards.md`): reset (R170), load
a program image (R171, decision D10), drive port I (R18), and, only where `HOST_EDITS` admits it (decision D12), change
memory or a register. A run is a list of such events and of steps from power-on, where there is no state yet (R173). -/

namespace Sys2Proof.Machine

/-- The bytes of an image written from an address upward. -/
def State.writeImage (s : State) (a : Byte) : List Byte → State
  | [] => s
  | v :: image => (s.writeMem a v).writeImage (a + 1) image

/-- Program load (R171): the image at addresses 0 upward; registers, flag, PC and SP are not touched. -/
def State.load (s : State) (image : List Byte) : State := s.writeImage 0 image

/-- The launch state of a run: reset, then load (R171, R172, R173). -/
def launch (image : List Byte) : State := State.reset.load image

/-- A direct edit by the host (R179, decision D12). FAULT is not among them: only a reset clears it (R154). -/
inductive HostEdit where
  | mem (a v : Byte)
  | reg (k : RegNum) (v : Byte)
  | pc (v : Byte)
  | sp (v : Byte)
  | zero (z : Bool)
  | portQ (v : Byte)
  | spare (v : Byte)
  deriving DecidableEq, Repr

/-- The effect of an edit: the one thing named, nothing else. -/
def State.edit (s : State) : HostEdit → State
  | .mem a v => s.writeMem a v
  | .reg k v => s.writeReg k v
  | .pc v => s.setPc v
  | .sp v => s.setSp v
  | .zero z => s.setZero z
  | .portQ v => s.setPortQ v
  | .spare v => { s with spare := v }

/-- The machine as the host finds it (R173, decision D10): "a state exists only as the result of a reset and load", so an
engine that was never reset has no state here. DESIGN CHOICE (assumption 14): the stretch between a reset and its load is
a phase of its own. -/
inductive Platform where
  /-- Power-on: never reset, and without a meaning (R173, U11). -/
  | neverReset
  /-- Reset, no image loaded since. -/
  | fresh (s : State)
  /-- Reset and loaded: a run is under way. -/
  | launched (s : State)
  deriving DecidableEq, Repr

/-- The engine's state, where there is one. -/
def Platform.state? : Platform → Option State
  | .neverReset => none
  | .fresh s => some s
  | .launched s => some s

/-- A host action on the state that leaves the phase alone; it needs a state. -/
def Platform.onState (f : State → State) : Platform → Option Platform
  | .neverReset => none
  | .fresh s => some (.fresh (f s))
  | .launched s => some (.launched (f s))

/-- An image loaded after a reset, once (R171: "After reset"; "all other bytes stay 0"). DESIGN CHOICE (assumption 14):
to load again the host resets first. -/
def Platform.load (image : List Byte) : Platform → Option Platform
  | .neverReset => none
  | .fresh s => some (.launched (s.load image))
  | .launched _ => none

/-- A step of a run; an engine that was never reset is not stepped (R173), nor is one that was reset and not yet loaded,
which R173 leaves unsaid: DESIGN CHOICE (assumption 21). -/
def Platform.step (cfg : Config) : Platform → Option Platform
  | .neverReset => none
  | .fresh _ => none
  | .launched s => some (.launched (cycleUnder cfg s))

/-- An event: a step of the engine, or a host action between steps (R179, decisions D8 and D10). Reading Q, the registers
or memory has no effect on the state and is no event; a host that stops calling `step` ends its list. -/
inductive Event where
  /-- The host calls `step` (R80). -/
  | step
  /-- Reset (R170). -/
  | reset
  /-- Load an image (R171). -/
  | load (image : List Byte)
  /-- Reset and load at once (R170, R171): what the reference software's `assemble` does. -/
  | launch (image : List Byte)
  /-- The host sets port I (R18). -/
  | setPortI (v : Byte)
  /-- The host edits memory or a register (decision D12). -/
  | edit (e : HostEdit)
  deriving DecidableEq, Repr

/-- Whether the configuration and the image allow the event: an image must be whole instructions that fit the memory
(R171; assumption 14), and edits need `HOST_EDITS` (R5). -/
def Event.allowed (cfg : Config) : Event → Bool
  | .step => true
  | .reset => true
  | .load image => decide (imageWf image)
  | .launch image => decide (imageWf image)
  | .setPortI _ => true
  | .edit _ => cfg.hostEdits

/-- What an event makes of the machine; `none` where the spec gives it no meaning. -/
def Event.apply (cfg : Config) (e : Event) (p : Platform) : Option Platform :=
  if e.allowed cfg then
    match e with
    | .step => p.step cfg
    | .reset => some (.fresh State.reset)
    | .load image => p.load image
    | .launch image => some (.launched (Sys2Proof.Machine.launch image))
    | .setPortI v => p.onState fun s => s.setPortI v
    | .edit d => p.onState fun s => s.edit d
  else none

/-- The machine after a list of events, in order (R39, R83: the host's own sequence of calls). A run of the machine is a
session from `Platform.neverReset`. -/
def session (cfg : Config) : List Event → Platform → Option Platform
  | [], p => some p
  | e :: es, p => (e.apply cfg p).bind (session cfg es)

/-- A state that some run is in: its engine was reset and loaded before its first step (R173). -/
def RunState (cfg : Config) (s : State) : Prop :=
  ∃ es, session cfg es .neverReset = some (.launched s)

end Sys2Proof.Machine
end

