-- ==== Sys2Proof/Machine/Observe.lean ====
section
/-! DEFINITION. What the host observes between steps (rules R73, R163): the values and the order of the register dump, the
lines of the machine-image dump, and the disassembler's reading of an address. Observation changes nothing: these are
functions of the state. How a value is printed is the presentation layer's (R3). -/

namespace Sys2Proof.Machine

/-- The register dump (R163): "lines for PC, SP, S0..S7, I, Q, and the spare register", in that order. -/
def State.registerDump (s : State) : List (String × Byte) :=
  [("PC", s.pc), ("SP", s.sp), ("S0", s.readReg 0), ("S1", s.readReg 1), ("S2", s.readReg 2), ("S3", s.readReg 3),
    ("S4", s.readReg 4), ("S5", s.readReg 5), ("S6", s.readReg 6), ("S7", s.readReg 7), ("I", s.portI),
    ("Q", s.portQ), ("SPARE", s.spare)]

/-- The position marker of a line of the machine-image dump (R163). -/
inductive DumpMarker where
  /-- `PC ->`: the address is PC. -/
  | atPc
  /-- `SP ->`: the address is SP. -/
  | atSp
  /-- `SP >>`: the address is SP − 1. -/
  | belowSp
  /-- Blank padding. -/
  | blank
  deriving DecidableEq, Repr

/-- An operand as the disassembler shows it (R73). -/
inductive ShownOperand where
  | reg (k : RegNum)
  | imm (v : Byte)
  | target (a : Byte)
  | portI
  | portQ
  deriving DecidableEq, Repr

/-- An operand of a kind, read from the two bytes at an address; a displacement shows as its absolute target
`(byte1 + address + 2) mod 256` (R73). -/
def showOperand (a byte0 byte1 : Byte) : OperandKind → ShownOperand
  | .d => .reg (destField byte0)
  | .s => .reg (srcField byte1)
  | .b => .imm byte1
  | .o => .target (byte1 + a + 2)
  | .portI => .portI
  | .portQ => .portQ

/-- `disassemble(state, address)` (R73): the mnemonic and its operands in schema order. DESIGN CHOICE (assumption 25), for
the two cases that R73 and U3 call implementation-defined: at an address that is not an instruction boundary it is the
same best-effort decode (the model has no boundary markers, R24), and at an unmapped opcode it is `none`, "N/A". -/
def State.disassemble (m : OpMap) (s : State) (a : Byte) : Option (Mnemonic × List ShownOperand) :=
  (lookupOpcode m (opcodeField (s.readMem a))).map fun k =>
    (k, k.schema.map (showOperand a (s.readMem a) (s.readMem (a + 1))))

/-- A line of the machine-image dump without its text: marker, address and the two raw bytes (R163). -/
structure DumpLine where
  marker : DumpMarker
  address : Byte
  byte0 : Byte
  byte1 : Byte
  deriving DecidableEq, Repr

/-- The marker of an address, the first of the listed conditions that holds (R163). -/
def State.marker (s : State) (a : Byte) : DumpMarker :=
  if a = s.pc then .atPc else if a = s.sp then .atSp else if a = s.sp - 1 then .belowSp else .blank

/-- The machine-image dump (R163): "one line per even address 0–254". -/
def State.imageDump (s : State) : List DumpLine :=
  (List.range 128).map fun n =>
    let a : Byte := BitVec.ofNat 8 (2 * n)
    ⟨s.marker a, a, s.readMem a, s.readMem (a + 1)⟩

end Sys2Proof.Machine
end

