-- ==== Sys2Proof/Safety.lean ====
section
/-! DEFINITION. What claims say of runs: reaching a state, running without a fault from a launch (rule R173 of
`70_reset_and_hazards.md`), and being finished (R181). -/

namespace Sys2Proof.Machine

/-- `t` is reached from `s` by steps that each gave a next state, under a configuration. -/
inductive Reaches (cfg : Config) : State → State → Prop where
  | refl (s : State) : Reaches cfg s s
  | tail (s t u : State) : Reaches cfg s t → stepUnder cfg t = .next u → Reaches cfg s u

/-- The launch state of a closed run (R173, R180): reset, port I set to the byte it is to hold, the image loaded. -/
def closedLaunch (image : List Byte) (v : Byte) : State := (State.reset.setPortI v).load image

/-- What a safe run is (R82: the fault is the only other outcome): `n` steps of the closed run of an image with `v` at
port I, from its launch state (R173), meet no fault. -/
def SafeFor (n : Nat) (image : List Byte) (v : Byte) : Prop :=
  imageWf image ∧ ∃ t, Sys2Proof.core.run n (closedLaunch image v) = .next t

/-- Whether an instruction is a jump to itself whose condition holds: `jp` with displacement 0xFE, or `jz` or `jnz` with
displacement 0xFE and the flag as it asks (R181). -/
def selfJump (i : Instr) (z : Bool) : Bool :=
  match i with
  | .jp o => o == 0xFE
  | .jz o => o == 0xFE && z
  | .jnz o => o == 0xFE && !z
  | .movi _ _ | .mov _ _ | .add _ _ | .sub _ _ | .and _ _ | .eor _ _ | .inc _ | .dec _ | .inI _ | .outQ _ | .rcall _
  | .ret | .shl _ | .shr _ => false

/-- A run is finished when the engine is not faulted and PC points at a jump to itself under the opcode map it runs with
(R181, decision D11): the end-of-run convention of the spec, not something the engine detects. DESIGN CHOICE
(assumption 18). -/
def State.finishedUnder (m : OpMap) (s : State) : Bool :=
  !s.fault &&
    match s.fetchUnder m with
    | .instr i => selfJump i s.zero
    | .unmapped _ => false

/-- `finishedUnder` at the default map, where the bytes at PC are `50 FE` (R181), `58 FE` or `60 FE`. -/
def State.finished (s : State) : Bool := s.finishedUnder machineConfig.opMap

/-- A run is finished when its state is; before a launch no run is. -/
def Platform.finished (cfg : Config) : Platform → Bool
  | .neverReset => false
  | .fresh _ => false
  | .launched s => s.finishedUnder cfg.opMap

/-- The invariant of a run: memory in its canonical form, every cell at one of the 256 addresses (R22), and the latch
FAULT clear (R153: a step that gives a next state ran on an engine that is not faulted). -/
def State.Inv (s : State) : Prop := s.mem.wf ∧ s.fault = false

end Sys2Proof.Machine
end

