-- ==== Sys2Proof/Certificates/Slice0/Obligations.lean ====
section
/-! DEFINITION. The statements for the provers, from the numbered rules of the spec. Results are said in plain numbers
(`toNat`, remainders), not in the model's own bit-vector operations. The statements about one instruction have two
halves: what `exec` answers on every state (PC already advanced), and what a step of the engine does under EVERY
configuration whose opcode map is well formed, on every word of the instruction's pattern, ignored bits included. The
opcode numbers of the default map are the spec's own choice (decision D1, assumption 1); only the statements that say so
rest on them. -/

open Sys2Proof Sys2Proof.Machine

namespace Sys2Proof.Claims

/-- The engine is not faulted and the two bytes at PC are `b0` and `b1`. -/
abbrev Fetches (s : State) (b0 b1 : Byte) : Prop :=
  s.fault = false ∧ s.readMem s.pc = b0 ∧ s.readMem (s.pc + 1) = b1

/-- `t` has PC two past that of `s`, modulo 256. -/
abbrev PcPast (s t : State) : Prop := t.pc.toNat = (s.pc.toNat + 2) % 256

/-- The frame outside PC, the general registers and Z: SP, both ports, SPARE, FAULT and every byte of memory are as they
were. -/
structure RestUnchanged (s t : State) : Prop where
  sp : t.sp = s.sp
  portI : t.portI = s.portI
  portQ : t.portQ = s.portQ
  spare : t.spare = s.spare
  fault : t.fault = s.fault
  mem : ∀ a, t.readMem a = s.readMem a

/-- Register `d` holds the number `v`, every other general register what it held, and the rest is unchanged. -/
structure WritesReg (d : RegNum) (v : Nat) (s t : State) : Prop where
  dest : (t.readReg d).toNat = v
  others : ∀ k, k ≠ d → t.readReg k = s.readReg k
  rest : RestUnchanged s t

/-- A move's effect: register `d` holds `v`, Z and all else as they were. -/
structure MoveEffect (d : RegNum) (v : Nat) (s t : State) : Prop where
  reg : WritesReg d v s t
  zero : t.zero = s.zero

/-- A result's effect: register `d` holds `v`, Z is true exactly when `v` is 0, all else as it was. -/
structure ResultEffect (d : RegNum) (v : Nat) (s t : State) : Prop where
  reg : WritesReg d v s t
  zero : t.zero = true ↔ v = 0

/-- Every general register and Z are as they were. -/
structure RegsUnchanged (s t : State) : Prop where
  reg : ∀ k, t.readReg k = s.readReg k
  zero : t.zero = s.zero

/-- A jump's effect: nothing but PC changes. -/
structure OnlyPcChanges (s t : State) : Prop where
  regs : RegsUnchanged s t
  rest : RestUnchanged s t

/-- `out`'s effect: port Q holds `v`; every register, Z, SP, the other ports, FAULT and every byte of memory are as they
were. -/
structure OutEffect (v : Nat) (s t : State) : Prop where
  portQ : t.portQ.toNat = v
  regs : RegsUnchanged s t
  sp : t.sp = s.sp
  portI : t.portI = s.portI
  spare : t.spare = s.spare
  fault : t.fault = s.fault
  mem : ∀ a, t.readMem a = s.readMem a

/-- `rcall`'s effect with return address `r`: SP one lower modulo 256, the byte at the new SP is `r`, every other byte and
every register, Z, both ports, SPARE and FAULT are as they were. -/
structure CallEffect (r : Nat) (s t : State) : Prop where
  sp : t.sp.toNat = (s.sp.toNat + 255) % 256
  pushed : (t.readMem t.sp).toNat = r
  mem : ∀ a, a ≠ t.sp → t.readMem a = s.readMem a
  regs : RegsUnchanged s t
  portI : t.portI = s.portI
  portQ : t.portQ = s.portQ
  spare : t.spare = s.spare
  fault : t.fault = s.fault

/-- `ret`'s effect: PC is the byte at the old SP, SP one higher modulo 256, every byte of memory and every register, Z,
both ports, SPARE and FAULT are as they were. -/
structure ReturnEffect (s t : State) : Prop where
  pc : t.pc = s.readMem s.sp
  sp : t.sp.toNat = (s.sp.toNat + 1) % 256
  mem : ∀ a, t.readMem a = s.readMem a
  regs : RegsUnchanged s t
  portI : t.portI = s.portI
  portQ : t.portQ = s.portQ
  spare : t.spare = s.spare
  fault : t.fault = s.fault

/-- The destination register of an instruction that recomputes Z, none for one that never writes it (the two lists of
R17). -/
def zeroDest : Instr → Option RegNum
  | .add d _ => some d
  | .sub d _ => some d
  | .and d _ => some d
  | .eor d _ => some d
  | .inc d => some d
  | .dec d => some d
  | .inI d => some d
  | .shl d => some d
  | .shr d => some d
  | .movi _ _ => none
  | .mov _ _ => none
  | .outQ _ => none
  | .jp _ => none
  | .jz _ => none
  | .jnz _ => none
  | .rcall _ => none
  | .ret => none

/-- The general registers an instruction reads (the table of R11). -/
def regReads : Instr → List RegNum
  | .movi _ _ => []
  | .mov _ r => [r]
  | .add d r => [d, r]
  | .sub d r => [d, r]
  | .and d r => [d, r]
  | .eor d r => [d, r]
  | .inc d => [d]
  | .dec d => [d]
  | .inI _ => []
  | .outQ r => [r]
  | .shl d => [d]
  | .shr d => [d]
  | .jp _ => []
  | .jz _ => []
  | .jnz _ => []
  | .rcall _ => []
  | .ret => []

/-- The general registers an instruction writes (the table of R11). -/
def regWrites : Instr → List RegNum
  | .movi d _ => [d]
  | .mov d _ => [d]
  | .add d _ => [d]
  | .sub d _ => [d]
  | .and d _ => [d]
  | .eor d _ => [d]
  | .inc d => [d]
  | .dec d => [d]
  | .inI d => [d]
  | .outQ _ => []
  | .shl d => [d]
  | .shr d => [d]
  | .jp _ => []
  | .jz _ => []
  | .jnz _ => []
  | .rcall _ => []
  | .ret => []

/-- PC after a step that runs an instruction from state `s`, as a number (the table of R13). -/
def pcAfter (i : Instr) (s : State) : Nat :=
  match i with
  | .jp o => (s.pc.toNat + 2 + o.toNat) % 256
  | .jz o => if s.zero then (s.pc.toNat + 2 + o.toNat) % 256 else (s.pc.toNat + 2) % 256
  | .jnz o => if s.zero then (s.pc.toNat + 2) % 256 else (s.pc.toNat + 2 + o.toNat) % 256
  | .rcall o => (s.pc.toNat + 2 + o.toNat) % 256
  | .ret => (s.readMem s.sp).toNat
  | .movi _ _ => (s.pc.toNat + 2) % 256
  | .mov _ _ => (s.pc.toNat + 2) % 256
  | .add _ _ => (s.pc.toNat + 2) % 256
  | .sub _ _ => (s.pc.toNat + 2) % 256
  | .and _ _ => (s.pc.toNat + 2) % 256
  | .eor _ _ => (s.pc.toNat + 2) % 256
  | .inc _ => (s.pc.toNat + 2) % 256
  | .dec _ => (s.pc.toNat + 2) % 256
  | .inI _ => (s.pc.toNat + 2) % 256
  | .outQ _ => (s.pc.toNat + 2) % 256
  | .shl _ => (s.pc.toNat + 2) % 256
  | .shr _ => (s.pc.toNat + 2) % 256

/-- The relative transfers that are taken when Z is `z`: `jp` and `rcall` always, `jz` or `jnz` as Z asks. -/
def takenTransfers (z : Bool) : List (Byte → Instr) :=
  [.jp, .rcall] ++ if z then [.jz] else [.jnz]

/-- An event that is neither a reset nor a launch (which begins with a reset). -/
def keepsRunning : Event → Bool
  | .step => true
  | .setPortI _ => true
  | .edit _ => true
  | .load _ => true
  | .reset => false
  | .launch _ => false

/-- An event that leaves the machine where a reset put it: port I is set, or an edit is made. -/
def keepsFresh : Event → Bool
  | .setPortI _ => true
  | .edit _ => true
  | .step => false
  | .load _ => false
  | .reset => false
  | .launch _ => false

/-- An event between a launch and the next reset: a step, port I, an edit. -/
def keepsLaunched : Event → Bool
  | .step => true
  | .setPortI _ => true
  | .edit _ => true
  | .load _ => false
  | .reset => false
  | .launch _ => false

/-- What port I holds after a session that began with `v` in it: what the host last set, 0 after a reset. -/
def portIAfter : List Event → Byte → Byte
  | [], v => v
  | .setPortI w :: es, _ => portIAfter es w
  | .reset :: es, _ => portIAfter es 0
  | .launch _ :: es, _ => portIAfter es 0
  | .step :: es, v => portIAfter es v
  | .load _ :: es, v => portIAfter es v
  | .edit _ :: es, v => portIAfter es v

/-- The engine's state after `n` calls of `step`, latch and all. -/
def cycles : Nat → State → State
  | 0, s => s
  | n + 1, s => cycles n (cycle s)

/-- An operand as the disassembler shows it, for an instruction at address `a` (R73). -/
def shownOperands (a : Byte) : Instr → List ShownOperand
  | .movi d b => [.reg d, .imm b]
  | .mov d r => [.reg d, .reg r]
  | .add d r => [.reg d, .reg r]
  | .sub d r => [.reg d, .reg r]
  | .and d r => [.reg d, .reg r]
  | .eor d r => [.reg d, .reg r]
  | .inc d => [.reg d]
  | .dec d => [.reg d]
  | .inI d => [.reg d, .portI]
  | .outQ r => [.portQ, .reg r]
  | .jp o => [.target (o + a + 2)]
  | .jz o => [.target (o + a + 2)]
  | .jnz o => [.target (o + a + 2)]
  | .rcall o => [.target (o + a + 2)]
  | .ret => []
  | .shl d => [.reg d]
  | .shr d => [.reg d]

end Sys2Proof.Claims

open Sys2Proof.Claims

/-! ## Encoding -/

/-- Under every opcode map of unique patterns, decoding the canonical bytes of an instruction gives it back, every operand
at every value its encoding admits (`30_encoding.md` sections 1 to 3). -/
def Obligations.DecodeOfEncodeIsTheInstruction : Prop :=
  ∀ m : OpMap, m.wf → ∀ i : Instr, i.wf = true →
    decodeUnder m (encodeUnder m i).1 (encodeUnder m i).2 = .instr i

/-- R54: the schema of each instruction and its format's pattern. Every word of a pattern, whatever its ignored bits `x`,
`y` (and the whole of `b` where the format has no `b` or `r`), decodes to the instruction with the operands in the
pattern's places, under every opcode map of unique patterns. -/
def Obligations.EveryWordOfAFormatDecodes : Prop :=
  (Mnemonic.all.map Mnemonic.schema = [[.d, .b], [.d, .s], [.d, .s], [.d, .s], [.d, .s], [.d, .s], [.d], [.d],
    [.d, .portI], [.portQ, .s], [.o], [.o], [.o], [.o], [], [.d], [.d]]) ∧
  ∀ m : OpMap, m.wf → ∀ (d r y : RegNum) (x : BitVec 5) (b : Byte),
    decodeUnder m (m .movi ++ d) b = .instr (.movi d b) ∧
    decodeUnder m (m .mov ++ d) (x ++ r) = .instr (.mov d r) ∧
    decodeUnder m (m .add ++ d) (x ++ r) = .instr (.add d r) ∧
    decodeUnder m (m .sub ++ d) (x ++ r) = .instr (.sub d r) ∧
    decodeUnder m (m .and ++ d) (x ++ r) = .instr (.and d r) ∧
    decodeUnder m (m .eor ++ d) (x ++ r) = .instr (.eor d r) ∧
    decodeUnder m (m .inc ++ d) b = .instr (.inc d) ∧
    decodeUnder m (m .dec ++ d) b = .instr (.dec d) ∧
    decodeUnder m (m .shl ++ d) b = .instr (.shl d) ∧
    decodeUnder m (m .shr ++ d) b = .instr (.shr d) ∧
    decodeUnder m (m .inI ++ d) b = .instr (.inI d) ∧
    decodeUnder m (m .outQ ++ y) (x ++ r) = .instr (.outQ r) ∧
    decodeUnder m (m .jp ++ y) b = .instr (.jp b) ∧
    decodeUnder m (m .jz ++ y) b = .instr (.jz b) ∧
    decodeUnder m (m .jnz ++ y) b = .instr (.jnz b) ∧
    decodeUnder m (m .rcall ++ y) b = .instr (.rcall b) ∧
    decodeUnder m (m .ret ++ y) b = .instr .ret

/-- Decoding is total: a word whose opcode a mnemonic has decodes to an instruction of that mnemonic, and every other word
gets the verdict "unmapped opcode" with its opcode; nothing else is possible (`30_encoding.md` sections 3 and 4). -/
def Obligations.WordsDecodeExactlyWhenMapped : Prop :=
  ∀ m : OpMap, m.wf → ∀ b0 b1 : Byte,
    (∀ k : Mnemonic, m k = b0.extractLsb' 3 5 → ∃ i, decodeUnder m b0 b1 = .instr i ∧ i.mnemonic = k) ∧
    ((∀ k : Mnemonic, m k ≠ b0.extractLsb' 3 5) → decodeUnder m b0 b1 = .unmapped (b0.extractLsb' 3 5))

/-- Under every opcode map of unique patterns exactly 15 of the 32 opcode values are unmapped (`00_scope.md` section 3,
conflict C1). -/
def Obligations.FifteenOpcodesAreUnmapped : Prop :=
  ∀ m : OpMap, m.wf →
    ((List.range 32).filter fun n => (lookupOpcode m (BitVec.ofNat 5 n)).isNone).length = 15

/-- Under the default map (decision D1, assumption 1) the unmapped words are exactly those whose first byte is 0x88 to
0xFF. -/
def Obligations.DefaultMapLeaves88UpUnmapped : Prop :=
  ∀ b0 b1 : Byte, (∃ opc, decode b0 b1 = .unmapped opc) ↔ 0x88 ≤ b0.toNat

/-- Words written out from the spec's encodings under the default map (decision D1, assumption 1), two of them with
ignored bits set, decode to the instructions they stand for (`95_test_vectors.md` section 2.1). -/
def Obligations.WordsOfTheSpecDecode : Prop :=
  decode 0x03 0x2A = .instr (.movi 3 0x2A) ∧ decode 0x09 0x02 = .instr (.mov 1 2) ∧
  decode 0x09 0xFA = .instr (.mov 1 2) ∧ decode 0x1A 0x03 = .instr (.sub 2 3) ∧
  decode 0x37 0xC9 = .instr (.inc 7) ∧ decode 0x42 0x00 = .instr (.inI 2) ∧
  decode 0x48 0x01 = .instr (.outQ 1) ∧ decode 0x60 0xFA = .instr (.jnz 0xFA) ∧
  decode 0x70 0x00 = .instr .ret ∧ decode 0x87 0x00 = .instr (.shr 7) ∧
  decode 0x88 0x00 = .unmapped 17

/-! ## The step -/

/-- The step cycle: while FAULT is set a step does nothing; else it runs the decoded instruction on the state with PC
advanced by 2; else, the opcode being unmapped, it raises IllegalOpcode with PC and `byte0`. First for this machine, then
under every configuration (an unmapped opcode under the policy `fault`). That IllegalOpcode is a fault outcome and that
FAULT is set and sticky is decision D3 (assumption 4); that a step of a faulted engine answers `faultLatched` while `cycle`,
the step as the mutation of the state, leaves the state alone is the model's choice (assumption 5). -/
def Obligations.StepRunsTheDecodedInstruction : Prop :=
  (∀ s : State,
    (s.fault = true → step s = .fault .faultLatched ∧ cycle s = s) ∧
    (s.fault = false →
      (∀ i, decode (s.readMem s.pc) (s.readMem (s.pc + 1)) = .instr i → step s = exec i { s with pc := s.pc + 2 }) ∧
      (∀ opc, decode (s.readMem s.pc) (s.readMem (s.pc + 1)) = .unmapped opc →
        step s = .fault (.illegalOpcode s.pc (s.readMem s.pc)) ∧ cycle s = { s with fault := true }))) ∧
  (∀ (cfg : Config) (s : State),
    (s.fault = true → stepUnder cfg s = .fault .faultLatched ∧ cycleUnder cfg s = s) ∧
    (s.fault = false →
      (∀ i, decodeUnder cfg.opMap (s.readMem s.pc) (s.readMem (s.pc + 1)) = .instr i →
        stepUnder cfg s = execUnder cfg i { s with pc := s.pc + 2 }) ∧
      (∀ opc, cfg.illegalPolicy = .fault →
        decodeUnder cfg.opMap (s.readMem s.pc) (s.readMem (s.pc + 1)) = .unmapped opc →
        stepUnder cfg s = .fault (.illegalOpcode s.pc (s.readMem s.pc)) ∧
          cycleUnder cfg s = { s with fault := true })))

/-- R82: a step of an engine that is not faulted has exactly one of two outcomes, the next state or the IllegalOpcode fault
with the state unchanged but for FAULT. -/
def Obligations.StepHasExactlyTwoOutcomes : Prop :=
  ∀ s : State, s.fault = false →
    (∃ t, step s = .next t ∧ cycle s = t) ∨
    (step s = .fault (.illegalOpcode s.pc (s.readMem s.pc)) ∧ cycle s = { s with fault := true })

/-- R152: nothing else faults. Every instruction has a next state in every state, under both shift settings, so a step that
gives none ran on a faulted engine or met an unmapped opcode. -/
def Obligations.NothingElseFaults : Prop :=
  (∀ (i : Instr) (s : State), ∃ t, exec i s = .next t) ∧
  (∀ (cfg : Config) (i : Instr) (s : State), ∃ t, execUnder cfg i s = .next t) ∧
  (∀ s : State, (∀ t, step s ≠ .next t) → s.fault = true ∨
    ∃ opc, decode (s.readMem s.pc) (s.readMem (s.pc + 1)) = .unmapped opc) ∧
  (∀ (cfg : Config) (s : State), (∀ t, stepUnder cfg s ≠ .next t) → s.fault = true ∨
    ∃ opc, decodeUnder cfg.opMap (s.readMem s.pc) (s.readMem (s.pc + 1)) = .unmapped opc)

/-- How each instruction leaves PC, and that each completes, at the step (the table of `10_state.md` section 3). -/
def Obligations.EachInstructionLeavesPcAsTabled : Prop :=
  ∀ (cfg : Config) (s : State) (i : Instr), s.fault = false →
    decodeUnder cfg.opMap (s.readMem s.pc) (s.readMem (s.pc + 1)) = .instr i →
      ∃ t, stepUnder cfg s = .next t ∧ t.pc.toNat = pcAfter i s

/-! ## One statement per instruction -/

/-- R100. -/
def Obligations.MoviLoadsTheImmediate : Prop :=
  (∀ (d : RegNum) (b : Byte) (s : State), ∃ t, exec (.movi d b) s = .next t ∧ t.pc = s.pc ∧ MoveEffect d b.toNat s t) ∧
  (∀ (cfg : Config) (s : State) (d : RegNum) (b : Byte), cfg.opMap.wf → Fetches s (cfg.opMap .movi ++ d) b →
    ∃ t, stepUnder cfg s = .next t ∧ PcPast s t ∧ MoveEffect d b.toNat s t)

/-- R101. -/
def Obligations.MovCopiesTheSource : Prop :=
  (∀ (d r : RegNum) (s : State), ∃ t, exec (.mov d r) s = .next t ∧ t.pc = s.pc ∧
    MoveEffect d (s.readReg r).toNat s t) ∧
  (∀ (cfg : Config) (s : State) (d r : RegNum) (x : BitVec 5), cfg.opMap.wf →
    Fetches s (cfg.opMap .mov ++ d) (x ++ r) →
    ∃ t, stepUnder cfg s = .next t ∧ PcPast s t ∧ MoveEffect d (s.readReg r).toNat s t)

/-- R110. -/
def Obligations.AddAddsModulo256 : Prop :=
  (∀ (d r : RegNum) (s : State), ∃ t, exec (.add d r) s = .next t ∧ t.pc = s.pc ∧
    ResultEffect d (((s.readReg d).toNat + (s.readReg r).toNat) % 256) s t) ∧
  (∀ (cfg : Config) (s : State) (d r : RegNum) (x : BitVec 5), cfg.opMap.wf →
    Fetches s (cfg.opMap .add ++ d) (x ++ r) →
    ∃ t, stepUnder cfg s = .next t ∧ PcPast s t ∧
      ResultEffect d (((s.readReg d).toNat + (s.readReg r).toNat) % 256) s t)

/-- R111. Destination minus source; Z is true exactly when the operands were equal. -/
def Obligations.SubSubtractsModulo256 : Prop :=
  (∀ (d r : RegNum) (s : State), ∃ t, exec (.sub d r) s = .next t ∧ t.pc = s.pc ∧
    ResultEffect d (((s.readReg d).toNat + 256 - (s.readReg r).toNat) % 256) s t ∧
    (t.zero = true ↔ s.readReg d = s.readReg r)) ∧
  (∀ (cfg : Config) (s : State) (d r : RegNum) (x : BitVec 5), cfg.opMap.wf →
    Fetches s (cfg.opMap .sub ++ d) (x ++ r) →
    ∃ t, stepUnder cfg s = .next t ∧ PcPast s t ∧
      ResultEffect d (((s.readReg d).toNat + 256 - (s.readReg r).toNat) % 256) s t)

/-- R112. The bits of the result are the conjunction of the operands' bits. -/
def Obligations.AndIsBitwise : Prop :=
  (∀ (d r : RegNum) (s : State), ∃ t, exec (.and d r) s = .next t ∧ t.pc = s.pc ∧
    (∀ n, (t.readReg d).getLsbD n = ((s.readReg d).getLsbD n && (s.readReg r).getLsbD n)) ∧
    ResultEffect d ((s.readReg d).toNat &&& (s.readReg r).toNat) s t) ∧
  (∀ (cfg : Config) (s : State) (d r : RegNum) (x : BitVec 5), cfg.opMap.wf →
    Fetches s (cfg.opMap .and ++ d) (x ++ r) →
    ∃ t, stepUnder cfg s = .next t ∧ PcPast s t ∧
      ResultEffect d ((s.readReg d).toNat &&& (s.readReg r).toNat) s t)

/-- R113. The bits of the result are the exclusive or of the operands' bits; Z is true exactly when the operands were
equal. -/
def Obligations.EorIsBitwise : Prop :=
  (∀ (d r : RegNum) (s : State), ∃ t, exec (.eor d r) s = .next t ∧ t.pc = s.pc ∧
    (∀ n, (t.readReg d).getLsbD n = ((s.readReg d).getLsbD n ^^ (s.readReg r).getLsbD n)) ∧
    ResultEffect d ((s.readReg d).toNat ^^^ (s.readReg r).toNat) s t ∧
    (t.zero = true ↔ s.readReg d = s.readReg r)) ∧
  (∀ (cfg : Config) (s : State) (d r : RegNum) (x : BitVec 5), cfg.opMap.wf →
    Fetches s (cfg.opMap .eor ++ d) (x ++ r) →
    ∃ t, stepUnder cfg s = .next t ∧ PcPast s t ∧
      ResultEffect d ((s.readReg d).toNat ^^^ (s.readReg r).toNat) s t)

/-- R114. Z is true exactly when the register held 0xFF. -/
def Obligations.IncAddsOneModulo256 : Prop :=
  (∀ (d : RegNum) (s : State), ∃ t, exec (.inc d) s = .next t ∧ t.pc = s.pc ∧
    ResultEffect d (((s.readReg d).toNat + 1) % 256) s t ∧ (t.zero = true ↔ s.readReg d = 0xFF)) ∧
  (∀ (cfg : Config) (s : State) (d : RegNum) (b : Byte), cfg.opMap.wf → Fetches s (cfg.opMap .inc ++ d) b →
    ∃ t, stepUnder cfg s = .next t ∧ PcPast s t ∧ ResultEffect d (((s.readReg d).toNat + 1) % 256) s t)

/-- R115. Z is true exactly when the register held 0x01. -/
def Obligations.DecSubtractsOneModulo256 : Prop :=
  (∀ (d : RegNum) (s : State), ∃ t, exec (.dec d) s = .next t ∧ t.pc = s.pc ∧
    ResultEffect d (((s.readReg d).toNat + 255) % 256) s t ∧ (t.zero = true ↔ s.readReg d = 0x01)) ∧
  (∀ (cfg : Config) (s : State) (d : RegNum) (b : Byte), cfg.opMap.wf → Fetches s (cfg.opMap .dec ++ d) b →
    ∃ t, stepUnder cfg s = .next t ∧ PcPast s t ∧ ResultEffect d (((s.readReg d).toNat + 255) % 256) s t)

/-- R120. The port is not changed (`RestUnchanged`). -/
def Obligations.InReadsPortI : Prop :=
  (∀ (d : RegNum) (s : State), ∃ t, exec (.inI d) s = .next t ∧ t.pc = s.pc ∧ ResultEffect d s.portI.toNat s t) ∧
  (∀ (cfg : Config) (s : State) (d : RegNum) (b : Byte), cfg.opMap.wf → Fetches s (cfg.opMap .inI ++ d) b →
    ∃ t, stepUnder cfg s = .next t ∧ PcPast s t ∧ ResultEffect d s.portI.toNat s t)

/-- R121. -/
def Obligations.OutWritesPortQ : Prop :=
  (∀ (r : RegNum) (s : State), ∃ t, exec (.outQ r) s = .next t ∧ t.pc = s.pc ∧ OutEffect (s.readReg r).toNat s t) ∧
  (∀ (cfg : Config) (s : State) (y r : RegNum) (x : BitVec 5), cfg.opMap.wf →
    Fetches s (cfg.opMap .outQ ++ y) (x ++ r) →
    ∃ t, stepUnder cfg s = .next t ∧ PcPast s t ∧ OutEffect (s.readReg r).toNat s t)

/-- R130. -/
def Obligations.JpAddsTheDisplacement : Prop :=
  (∀ (o : Byte) (s : State), ∃ t, exec (.jp o) s = .next t ∧ t.pc.toNat = (s.pc.toNat + o.toNat) % 256 ∧
    OnlyPcChanges s t) ∧
  (∀ (cfg : Config) (s : State) (y : RegNum) (o : Byte), cfg.opMap.wf → Fetches s (cfg.opMap .jp ++ y) o →
    ∃ t, stepUnder cfg s = .next t ∧ t.pc.toNat = (s.pc.toNat + 2 + o.toNat) % 256 ∧ OnlyPcChanges s t ∧
      (o = 0xFE → t = s))

/-- R131. -/
def Obligations.JzJumpsWhenZeroIsSet : Prop :=
  (∀ (o : Byte) (s : State), ∃ t, exec (.jz o) s = .next t ∧
    t.pc.toNat = (if s.zero then (s.pc.toNat + o.toNat) % 256 else s.pc.toNat) ∧ OnlyPcChanges s t) ∧
  (∀ (cfg : Config) (s : State) (y : RegNum) (o : Byte), cfg.opMap.wf → Fetches s (cfg.opMap .jz ++ y) o →
    ∃ t, stepUnder cfg s = .next t ∧ OnlyPcChanges s t ∧
      (s.zero = true → t.pc.toNat = (s.pc.toNat + 2 + o.toNat) % 256) ∧ (s.zero = false → PcPast s t))

/-- R132. -/
def Obligations.JnzJumpsWhenZeroIsClear : Prop :=
  (∀ (o : Byte) (s : State), ∃ t, exec (.jnz o) s = .next t ∧
    t.pc.toNat = (if s.zero then s.pc.toNat else (s.pc.toNat + o.toNat) % 256) ∧ OnlyPcChanges s t) ∧
  (∀ (cfg : Config) (s : State) (y : RegNum) (o : Byte), cfg.opMap.wf → Fetches s (cfg.opMap .jnz ++ y) o →
    ∃ t, stepUnder cfg s = .next t ∧ OnlyPcChanges s t ∧
      (s.zero = false → t.pc.toNat = (s.pc.toNat + 2 + o.toNat) % 256) ∧ (s.zero = true → PcPast s t))

/-- R133. The step half holds wherever SP points, so also where the push lands on the instruction's own bytes. -/
def Obligations.RcallPushesTheReturnAddress : Prop :=
  (∀ (o : Byte) (s : State), ∃ t, exec (.rcall o) s = .next t ∧ t.pc.toNat = (s.pc.toNat + o.toNat) % 256 ∧
    CallEffect s.pc.toNat s t) ∧
  (∀ (cfg : Config) (s : State) (y : RegNum) (o : Byte), cfg.opMap.wf → Fetches s (cfg.opMap .rcall ++ y) o →
    ∃ t, stepUnder cfg s = .next t ∧ t.pc.toNat = (s.pc.toNat + 2 + o.toNat) % 256 ∧
      CallEffect ((s.pc.toNat + 2) % 256) s t)

/-- R134. -/
def Obligations.RetPopsThePc : Prop :=
  (∀ s : State, ∃ t, exec .ret s = .next t ∧ ReturnEffect s t) ∧
  (∀ (cfg : Config) (s : State) (y : RegNum) (b : Byte), cfg.opMap.wf → Fetches s (cfg.opMap .ret ++ y) b →
    ∃ t, stepUnder cfg s = .next t ∧ ReturnEffect s t)

/-- `shl` under both settings of `SHIFT_INVERTED`; at the default it shifts right. The direction and the zero fill are the
spec's decisions D2 and D4 (assumptions 2 and 3). -/
def Obligations.ShlShiftsRightWhenInverted : Prop :=
  (∀ (d : RegNum) (s : State), ∃ t, exec (.shl d) s = .next t ∧ t.pc = s.pc ∧
    ResultEffect d ((s.readReg d).toNat / 2) s t) ∧
  (∀ (cfg : Config) (s : State) (d : RegNum) (b : Byte), cfg.opMap.wf → Fetches s (cfg.opMap .shl ++ d) b →
    ∃ t, stepUnder cfg s = .next t ∧ PcPast s t ∧
      ResultEffect d (if cfg.shiftInverted then (s.readReg d).toNat / 2 else (s.readReg d).toNat * 2 % 256) s t)

/-- `shr` under both settings of `SHIFT_INVERTED`; at the default it shifts left. The direction and the zero fill are the
spec's decisions D2 and D4 (assumptions 2 and 3). -/
def Obligations.ShrShiftsLeftWhenInverted : Prop :=
  (∀ (d : RegNum) (s : State), ∃ t, exec (.shr d) s = .next t ∧ t.pc = s.pc ∧
    ResultEffect d ((s.readReg d).toNat * 2 % 256) s t) ∧
  (∀ (cfg : Config) (s : State) (d : RegNum) (b : Byte), cfg.opMap.wf → Fetches s (cfg.opMap .shr ++ d) b →
    ∃ t, stepUnder cfg s = .next t ∧ PcPast s t ∧
      ResultEffect d (if cfg.shiftInverted then (s.readReg d).toNat * 2 % 256 else (s.readReg d).toNat / 2) s t)

/-! ## Rules over the whole instruction set -/

/-- R116: every instruction that recomputes Z sets it from the byte it stored, and the old Z plays no part. -/
def Obligations.ZeroFlagIsOfTheStoredByte : Prop :=
  ∀ (i : Instr) (d : RegNum), zeroDest i = some d → ∀ (s : State) (z : Bool),
    ∃ t, exec i s = .next t ∧ exec i { s with zero := z } = .next t ∧ (t.zero = true ↔ (t.readReg d).toNat = 0)

/-- R17: the nine listed instructions recompute Z and no other writes it; `jz` and `jnz` read it, each as its condition,
and no other instruction depends on it. -/
def Obligations.OnlyListedInstructionsUseZero : Prop :=
  (∀ (i : Instr) (d : RegNum) (s t : State), zeroDest i = some d → exec i s = .next t →
    t.zero = decide (t.readReg d = 0)) ∧
  (∀ (i : Instr) (s t : State), zeroDest i = none → exec i s = .next t → t.zero = s.zero) ∧
  (∀ (o : Byte) (s t : State), exec (.jz o) s = .next t →
    t.pc = if s.zero then s.pc + o else s.pc) ∧
  (∀ (o : Byte) (s t : State), exec (.jnz o) s = .next t →
    t.pc = if s.zero then s.pc else s.pc + o) ∧
  (∀ (i : Instr) (s : State) (z : Bool), (∀ o, i ≠ .jz o) → (∀ o, i ≠ .jnz o) →
    ∃ t t', exec i s = .next t ∧ exec i { s with zero := z } = .next t' ∧ { t with zero := t'.zero } = t')

/-- Read as two's-complement numbers, add, sub, inc and dec give the signed result wrapped to 8 bits; add and sub give the
signed result itself wherever it lies in −128 to 127 (`42_alu.md` section 1). -/
def Obligations.ArithmeticIsTwosComplementToo : Prop :=
  ∀ (d r : RegNum) (s : State),
    (∃ t, exec (.add d r) s = .next t ∧
      (t.readReg d).toInt = ((s.readReg d).toInt + (s.readReg r).toInt).bmod 256 ∧
      (-128 ≤ (s.readReg d).toInt + (s.readReg r).toInt → (s.readReg d).toInt + (s.readReg r).toInt ≤ 127 →
        (t.readReg d).toInt = (s.readReg d).toInt + (s.readReg r).toInt)) ∧
    (∃ t, exec (.sub d r) s = .next t ∧
      (t.readReg d).toInt = ((s.readReg d).toInt - (s.readReg r).toInt).bmod 256 ∧
      (-128 ≤ (s.readReg d).toInt - (s.readReg r).toInt → (s.readReg d).toInt - (s.readReg r).toInt ≤ 127 →
        (t.readReg d).toInt = (s.readReg d).toInt - (s.readReg r).toInt)) ∧
    (∃ t, exec (.inc d) s = .next t ∧ (t.readReg d).toInt = ((s.readReg d).toInt + 1).bmod 256) ∧
    (∃ t, exec (.dec d) s = .next t ∧ (t.readReg d).toInt = ((s.readReg d).toInt - 1).bmod 256)

/-- Which general register an instruction writes, and which it depends on (the table of `10_state.md` section 2): the
others keep their values, and another value in a register it does not read makes no other difference. -/
def Obligations.InstructionsUseOnlyTheirRegisters : Prop :=
  ∀ (i : Instr) (s t : State), exec i s = .next t →
    (∀ k, k ∉ regWrites i → t.readReg k = s.readReg k) ∧
    (∀ (k : RegNum) (v : Byte), k ∉ regReads i →
      ∃ t', exec i (s.writeReg k v) = .next t' ∧
        (∀ j, j ≠ k ∨ j ∈ regWrites i → t'.readReg j = t.readReg j) ∧
        t' = { t with regs := t'.regs })

/-- R135, for the relative transfers that are taken: the target is the post-advance PC plus the displacement modulo 256,
unsigned or signed; every target is reached by exactly one displacement; 0x00 targets the next instruction and 0xFE the
instruction itself; the assembler's displacement reaches its target, and the disassembler prints it. -/
def Obligations.RelativeTransfersReachTheirTarget : Prop :=
  ∀ (s : State) (f : Byte → Instr), f ∈ takenTransfers s.zero →
    (∀ o : Byte, ∃ t, exec (f o) s = .next t ∧ t.pc.toNat = (s.pc.toNat + o.toNat) % 256 ∧
      (t.pc.toNat : Int) = ((s.pc.toNat : Int) + o.toInt) % 256 ∧
      (o = 0x00 → t.pc = s.pc) ∧ (o = 0xFE → t.pc = s.pc - 2) ∧
      showOperand (s.pc - 2) 0 o .o = .target t.pc) ∧
    (∀ target : Byte, ∃! o : Byte, ∃ t, exec (f o) s = .next t ∧ t.pc = target) ∧
    (∀ target : Byte, ∃ t, exec (f (displacementTo (s.pc - 2) target)) s = .next t ∧ t.pc = target)

/-- R15: only `rcall` and `ret` write SP, and no other instruction depends on it. `rcall` decrements it and then stores one
byte there, `ret` reads the byte there and then increments it, all modulo 256; the first push after reset goes to address
255. -/
def Obligations.OnlyCallAndReturnUseSp : Prop :=
  (∀ (i : Instr) (s t : State), (∀ o, i ≠ .rcall o) → i ≠ .ret → exec i s = .next t →
    t.sp = s.sp ∧ ∀ v, exec i { s with sp := v } = .next { t with sp := v }) ∧
  (∀ (o : Byte) (s : State), ∃ t, exec (.rcall o) s = .next t ∧ t.sp = s.sp - 1 ∧ t.readMem t.sp = s.pc) ∧
  (∀ s : State, ∃ t, exec .ret s = .next t ∧ t.pc = s.readMem s.sp ∧ t.sp = s.sp + 1) ∧
  (∀ (o pc : Byte), ∃ t, exec (.rcall o) { State.reset with pc := pc } = .next t ∧ t.sp = 255 ∧ t.readMem 255 = pc)

/-- R136: the push pre-decrements SP and stores one byte at it, the pop reads one byte at SP and post-increments it; no
other instruction touches memory or SP; neither of the two touches a general register. -/
def Obligations.TheStackIsTheOnlyData : Prop :=
  (∀ (o : Byte) (s : State), ∃ t, exec (.rcall o) s = .next t ∧ t.sp.toNat = (s.sp.toNat + 255) % 256 ∧
    t.readMem t.sp = s.pc ∧ (∀ a, a ≠ t.sp → t.readMem a = s.readMem a) ∧ ∀ k, t.readReg k = s.readReg k) ∧
  (∀ s : State, ∃ t, exec .ret s = .next t ∧ t.pc = s.readMem s.sp ∧ t.sp.toNat = (s.sp.toNat + 1) % 256 ∧
    (∀ a, t.readMem a = s.readMem a) ∧ ∀ k, t.readReg k = s.readReg k) ∧
  (∀ (i : Instr) (s t : State), (∀ o, i ≠ .rcall o) → i ≠ .ret → exec i s = .next t →
    t.sp = s.sp ∧ (∀ a, t.readMem a = s.readMem a) ∧
    ∀ m : Memory, exec i { s with mem := m } = .next { t with mem := m })

/-- What a step reads of memory: the byte at PC, for a mapped opcode the next byte, for `ret` the byte at SP; and what it
writes: for `rcall` the byte below SP (`20_memory.md` section 2). Two states that differ only in memory and agree at the
bytes read behave the same, and every byte not written keeps its value. -/
def Obligations.StepsTouchOnlyTheTabledBytes : Prop :=
  ∀ (cfg : Config) (s : State) (m : Memory), s.fault = false →
    m.read s.pc = s.readMem s.pc →
    ((∃ i, s.fetchUnder cfg.opMap = .instr i) → m.read (s.pc + 1) = s.readMem (s.pc + 1)) →
    (s.fetchUnder cfg.opMap = .instr .ret → m.read s.sp = s.readMem s.sp) →
    (∀ f, stepUnder cfg s = .fault f → stepUnder cfg { s with mem := m } = .fault f) ∧
    (∀ t, stepUnder cfg s = .next t →
      ∃ t', stepUnder cfg { s with mem := m } = .next t' ∧ t' = { t with mem := t'.mem } ∧
        (∀ o, s.fetchUnder cfg.opMap = .instr (.rcall o) →
          ∀ a, t'.readMem a = if a = s.sp - 1 then s.pc + 2 else m.read a) ∧
        ((∀ o, s.fetchUnder cfg.opMap ≠ .instr (.rcall o)) → ∀ a, t'.readMem a = m.read a))

/-- No instruction writes port I or SPARE, and only `out` writes port Q; no instruction depends on port Q or SPARE, and only
`in` on port I (`10_state.md` section 6; that I is a byte the engine leaves alone is decision D9, assumption 9). -/
def Obligations.PortsAndSpareHaveNoOtherUse : Prop :=
  ∀ (i : Instr) (s t : State), exec i s = .next t →
    t.portI = s.portI ∧ t.spare = s.spare ∧ ((∀ r, i ≠ .outQ r) → t.portQ = s.portQ) ∧
    (∀ v, exec i { s with spare := v } = .next { t with spare := v }) ∧
    (∀ v, ∃ q, exec i { s with portQ := v } = .next { t with portQ := q }) ∧
    ((∀ d, i ≠ .inI d) → ∀ v, exec i { s with portI := v } = .next { t with portI := v })

/-! ## The exception -/

/-- IllegalOpcode is precise and sticky (decision D3, assumption 4): after a step that fetches an unmapped opcode the state
is the one before it with FAULT set, however often the engine is stepped again. -/
def Obligations.IllegalOpcodeLatchesAndStops : Prop :=
  ∀ (s : State) (opc : Opcode), s.fault = false →
    decode (s.readMem s.pc) (s.readMem (s.pc + 1)) = .unmapped opc →
    step s = .fault (.illegalOpcode s.pc (s.readMem s.pc)) ∧
    ∀ n, cycles (n + 1) s = { s with fault := true } ∧ step (cycles (n + 1) s) = .fault .faultLatched

/-- Only a reset clears FAULT (decision D3, assumption 4): no sequence of steps, port changes, host edits and loads does,
under any configuration. -/
def Obligations.OnlyResetClearsFault : Prop :=
  (∀ (cfg : Config) (es : List Event) (p q : Platform) (s : State), p.state? = some s → s.fault = true →
    es.all keepsRunning = true → session cfg es p = some q → ∃ t, q.state? = some t ∧ t.fault = true) ∧
  (∀ (cfg : Config) (p : Platform), session cfg [.reset] p = some (.fresh State.reset)) ∧ State.reset.fault = false

/-- The other policy for an unmapped opcode (decision D3, assumption 4): PC advances by 2 and nothing else changes. -/
def Obligations.NopPolicySkipsUnmappedOpcodes : Prop :=
  ∀ (cfg : Config) (s : State) (opc : Opcode), cfg.illegalPolicy = .nop → s.fault = false →
    decodeUnder cfg.opMap (s.readMem s.pc) (s.readMem (s.pc + 1)) = .unmapped opc →
    ∃ t, stepUnder cfg s = .next t ∧ PcPast s t ∧ OnlyPcChanges s t

/-! ## Reset, launch, host -/

/-- The state after reset (`10_state.md` section 9; I, Q and SPARE by decision D20, assumption 11). -/
def Obligations.ResetZeroesEverything : Prop :=
  (∀ k, State.reset.readReg k = 0) ∧ State.reset.pc = 0 ∧ State.reset.sp = 0 ∧ State.reset.zero = false ∧
  State.reset.portI = 0 ∧ State.reset.portQ = 0 ∧ State.reset.spare = 0 ∧ State.reset.fault = false ∧
  ∀ a, State.reset.readMem a = 0

/-- R172: the first step after reset and load runs the instruction at address 0, with every register 0, Z false and
SP 0. -/
def Obligations.FirstStepRunsAddressZero : Prop :=
  ∀ (b0 b1 : Byte) (rest : List Byte) (i : Instr), imageWf (b0 :: b1 :: rest) → decode b0 b1 = .instr i →
    (launch (b0 :: b1 :: rest)).pc = 0 ∧ (launch (b0 :: b1 :: rest)).sp = 0 ∧
    (launch (b0 :: b1 :: rest)).zero = false ∧ (∀ k, (launch (b0 :: b1 :: rest)).readReg k = 0) ∧
    step (launch (b0 :: b1 :: rest)) = exec i { launch (b0 :: b1 :: rest) with pc := 2 }

/-- A launch places the image at addresses 0 upward, leaves every other byte 0 and everything else at its reset value, and
keeps nothing of the machine before it (decision D10, assumption 10), with memory in the model's canonical form
(assumption 12). An image that is no whole number of instructions, or too long, is not taken: the model's choice
(assumption 14). -/
def Obligations.LaunchKeepsNothingOfBefore : Prop :=
  ∀ (cfg : Config) (image : List Byte) (p : Platform),
    (imageWf image → ∃ t, Event.apply cfg (.launch image) p = some (.launched t) ∧
      (∀ a, t.readMem a = image.getD a.toNat 0) ∧ t = { State.reset with mem := t.mem } ∧ t.mem.wf) ∧
    (¬ imageWf image → Event.apply cfg (.launch image) p = none)

/-- What the host can do between steps at the default configuration besides a reset and a load: set port I, which changes
port I and nothing else. After any session port I holds what the host last set (0 by a reset), SPARE is as it was if there
was no reset, and a session with an edit in it is turned away (decisions D9 and D12, assumptions 9 and 13). -/
def Obligations.HostSetsOnlyPortI : Prop :=
  (∀ (cfg : Config) (s : State) (v : Byte),
    Event.apply cfg (.setPortI v) (.fresh s) = some (.fresh { s with portI := v }) ∧
    Event.apply cfg (.setPortI v) (.launched s) = some (.launched { s with portI := v })) ∧
  (∀ (es : List Event) (p q : Platform) (s : State), p.state? = some s → session machineConfig es p = some q →
    ∃ t, q.state? = some t ∧ t.portI = portIAfter es s.portI) ∧
  (∀ (es : List Event) (p q : Platform) (s : State), p.state? = some s → es.all keepsRunning = true →
    session machineConfig es p = some q → ∃ t, q.state? = some t ∧ t.spare = s.spare) ∧
  (∀ (es : List Event) (p : Platform) (e : HostEdit), Event.edit e ∈ es → session machineConfig es p = none)

/-! ## Runs -/

/-- Every step that gives a next state, under any configuration, keeps memory in its canonical form (cells at rising
addresses below 256, none holding the unlisted byte) and the engine unfaulted. The form is the model's (assumption 12). -/
def Obligations.StepsKeepTheInvariant : Prop :=
  ∀ (cfg : Config) (s t : State), s.Inv → stepUnder cfg s = .next t → t.Inv

/-- The invariant holds at reset. -/
def Obligations.ResetMeetsTheInvariant : Prop := State.reset.Inv

/-- The states that a step maps to themselves are exactly the finished ones, under every configuration and for this
machine: not faulted, PC at a jump to itself whose condition holds, which under a map of unique patterns is a word of that
pattern with operand byte 0xFE; and such a state stays for any number of steps (decision D11, assumption 18). -/
def Obligations.FinishedStatesAreTheFixedPoints : Prop :=
  (∀ (cfg : Config) (s : State), stepUnder cfg s = .next s ↔ s.finishedUnder cfg.opMap = true) ∧
  (∀ s : State, step s = .next s ↔ s.finished = true) ∧
  (∀ (s : State) (n : Nat), s.finished = true → Sys2Proof.core.run n s = .next s) ∧
  (∀ (cfg : Config) (p : Platform) (n : Nat), p.finished cfg = true →
    session cfg (List.replicate n .step) p = some p) ∧
  (∀ (m : OpMap) (s : State), m.wf → (s.finishedUnder m = true ↔
    s.fault = false ∧ s.readMem (s.pc + 1) = 0xFE ∧
      ((s.readMem s.pc).extractLsb' 3 5 = m .jp ∨ (s.readMem s.pc).extractLsb' 3 5 = m .jz ∧ s.zero = true ∨
        (s.readMem s.pc).extractLsb' 3 5 = m .jnz ∧ s.zero = false)))

/-- A call and its return (`95_test_vectors.md` E5): `rcall` at address A stores A+2 at the new SP; a `ret` run later from
any state with that SP and that byte still there goes back to A+2 and restores the SP of before the call. -/
def Obligations.ReturnComesBackFromCall : Prop :=
  ∀ (s t u : State) (o : Byte), s.fetch = .instr (.rcall o) → step s = .next t →
    u.fault = false → u.fetch = .instr .ret → u.sp = t.sp → u.readMem u.sp = t.readMem t.sp →
    t.readMem t.sp = s.pc + 2 ∧ ∃ v, step u = .next v ∧ v.pc = s.pc + 2 ∧ v.sp = s.sp

/-- A pushed byte is seen by the very next fetch (`20_memory.md` section 5): a call that jumps to where it pushed fetches
its own return address. -/
def Obligations.NextFetchSeesThePushedByte : Prop :=
  ∀ (o : Byte) (s t : State), exec (.rcall o) s = .next t →
    (t.pc = s.sp - 1 → t.fetchByte0 = s.pc) ∧ (t.pc + 1 = s.sp - 1 → t.fetchByte1 = s.pc)

/-- The disassembler reads back an encoded instruction with its operands in schema order, a displacement as its absolute
target, at every address where its bytes stand. At an instruction boundary this is `95_test_vectors.md` E1; at any other
address the disassembly is implementation-defined (U3), and that it is the same best-effort decode there is the model's
choice (assumption 25). -/
def Obligations.DisassemblyShowsTheInstruction : Prop :=
  ∀ (m : OpMap) (i : Instr) (s : State) (a : Byte), m.wf → s.readMem a = (encodeUnder m i).1 →
    s.readMem (a + 1) = (encodeUnder m i).2 → s.disassemble m a = some (i.mnemonic, shownOperands a i)

/-! ## Reset and load apart -/

/-- A step, a load, a port change or an edit of an engine that was never reset has no meaning, nor has a step before a
load: a run from power-on that is launched was launched by a reset and then a load, with only port changes and edits
between, or by both at once, and since then it was stepped, its port set and edited, no more. Decision D10; what stands
between a reset and its load is the model's choice (assumptions 14 and 21). -/
def Obligations.RunsBeginWithResetAndLoad : Prop :=
  (∀ (cfg : Config) (e : Event), e ≠ .reset → (∀ image, e ≠ .launch image) →
    Event.apply cfg e .neverReset = none) ∧
  (∀ (cfg : Config) (s : State), Event.apply cfg .step (.fresh s) = none) ∧
  (∀ (cfg : Config) (es : List Event) (s : State), session cfg es .neverReset = some (.launched s) →
    ∃ before image since, imageWf image ∧ since.all keepsLaunched = true ∧
      (es = before ++ .launch image :: since ∨
        ∃ between, between.all keepsFresh = true ∧ es = before ++ .reset :: between ++ .load image :: since))

/-- A load after a reset writes the image's bytes at addresses 0 upward and changes nothing else: port I, if the host set
it since the reset, is kept. A reset and a load are a launch. A load into a machine that is launched or was never reset,
and an image that is no whole number of instructions or too long, are not taken. Decision D10 (assumption 10); that there
is one load for a reset, and which images are taken, is the model's choice (assumption 14). -/
def Obligations.LoadChangesMemoryAlone : Prop :=
  ∀ (cfg : Config) (image : List Byte),
    (imageWf image →
      (∀ s, ∃ t, Event.apply cfg (.load image) (.fresh s) = some (.launched t) ∧ t = { s with mem := t.mem } ∧
        ∀ a, t.readMem a = image.getD a.toNat (s.readMem a)) ∧
      (∀ (p : Platform) (v : Byte), session cfg [.reset, .setPortI v, .load image] p =
        some (.launched { launch image with portI := v }))) ∧
    (∀ p, session cfg [.reset, .load image] p = session cfg [.launch image] p) ∧
    Event.apply cfg (.load image) .neverReset = none ∧
    (∀ s, Event.apply cfg (.load image) (.launched s) = none) ∧
    (¬ imageWf image → ∀ p, Event.apply cfg (.load image) p = none)

/-- Whatever the host does, under any configuration, memory stays in the model's canonical form (assumption 12): every
event keeps it, so every state of every run from power-on has it. -/
def Obligations.EventsKeepMemoryCanonical : Prop :=
  (∀ (cfg : Config) (e : Event) (p q : Platform) (t : State), (∀ s, p.state? = some s → s.mem.wf) →
    Event.apply cfg e p = some q → q.state? = some t → t.mem.wf) ∧
  (∀ (cfg : Config) (s : State), RunState cfg s → s.mem.wf)
end

