-- ==== Sys2Proof/Laws/Decode.lean ====
section
/-! SUPPORT. The fields of the instruction bytes and the descriptor lookup (rules R51, R52, R56, R58 of
`30_encoding.md`). -/

namespace Sys2Proof

/-! ### Fields -/

@[simp] theorem opcodeField_append (opc : Opcode) (d : RegNum) : opcodeField (opc ++ d) = opc := by
  revert opc d; decide

@[simp] theorem destField_append (opc : Opcode) (d : RegNum) : destField (opc ++ d) = d := by
  revert opc d; decide

@[simp] theorem srcField_append (x : BitVec 5) (r : RegNum) : srcField (x ++ r) = r := by
  revert x r; decide

/-- A byte is its opcode field followed by its register field. -/
theorem append_fields (b : Byte) : (opcodeField b ++ destField b : BitVec 8) = b := by
  revert b; decide

@[simp] theorem opcodeField_byte0Of (opc : Opcode) (d : RegNum) : opcodeField (byte0Of opc d) = opc :=
  opcodeField_append opc d

@[simp] theorem destField_byte0Of (opc : Opcode) (d : RegNum) : destField (byte0Of opc d) = d :=
  destField_append opc d

@[simp] theorem srcField_byte1OfSrc (r : RegNum) : srcField (byte1OfSrc r) = r := srcField_append 0 r

/-! ### The opcode map -/

theorem Mnemonic.mem_all (k : Mnemonic) : k ∈ Mnemonic.all := by cases k <;> decide

/-- A well-formed opcode map is injective (R56). -/
theorem OpMap.wf.injective {m : OpMap} (h : m.wf) {k k' : Mnemonic} (e : m k = m k') : k = k' :=
  List.inj_on_of_nodup_map h k.mem_all k'.mem_all e

theorem defaultOpMap_wf : OpMap.wf defaultOpMap := by decide

theorem lookupOpcode_eq_some {m : OpMap} (h : m.wf) {opc : Opcode} {k : Mnemonic} :
    lookupOpcode m opc = some k ↔ m k = opc := by
  constructor
  · intro e; simpa using List.find?_some e
  · intro e
    cases hf : lookupOpcode m opc with
    | none => exact absurd (List.find?_eq_none.1 hf k k.mem_all) (by simp [e])
    | some k' =>
      have : m k' = opc := by simpa using List.find?_some hf
      rw [h.injective (this.trans e.symm)]

theorem lookupOpcode_eq_none {m : OpMap} {opc : Opcode} : lookupOpcode m opc = none ↔ ∀ k, m k ≠ opc := by
  constructor
  · intro e k; simpa using List.find?_eq_none.1 e k k.mem_all
  · intro e; exact List.find?_eq_none.2 fun k _ => by simpa using e k

/-! ### Decoding -/

/-- A byte that carries a mnemonic's opcode decodes to that mnemonic's instruction with the extracted fields. -/
theorem decodeUnder_of_opcode {m : OpMap} (h : m.wf) {k : Mnemonic} {b0 : Byte} (e : opcodeField b0 = m k) (b1 : Byte) :
    decodeUnder m b0 b1 = .instr (instrOf k (destField b0) (srcField b1) b1) := by
  simp [decodeUnder, e, (lookupOpcode_eq_some h).2 rfl]

/-- The same for a byte written as opcode and register field. -/
theorem decodeUnder_append {m : OpMap} (h : m.wf) (k : Mnemonic) (d : RegNum) (b1 : Byte) :
    decodeUnder m (m k ++ d) b1 = .instr (instrOf k d (srcField b1) b1) := by
  simpa using decodeUnder_of_opcode h (opcodeField_append (m k) d) b1

theorem decodeUnder_eq_unmapped {m : OpMap} {b0 b1 : Byte} {opc : Opcode} :
    decodeUnder m b0 b1 = .unmapped opc ↔ opcodeField b0 = opc ∧ ∀ k, m k ≠ opc := by
  unfold decodeUnder
  cases hl : lookupOpcode m (opcodeField b0) with
  | none =>
    have := lookupOpcode_eq_none.1 hl
    simp only [Decoded.unmapped.injEq]
    constructor
    · rintro rfl; exact ⟨rfl, this⟩
    · exact fun h => h.1
  | some k =>
    simp only [reduceCtorEq, false_iff, not_and, not_forall, not_not]
    intro e
    exact ⟨k, by rw [← e]; simpa using List.find?_some hl⟩

/-- Whatever an instruction decodes from, its mnemonic is that of the opcode field. -/
theorem mnemonic_instrOf (k : Mnemonic) (d r : RegNum) (b : Byte) : (instrOf k d r b).mnemonic = k := by
  cases k <;> rfl

end Sys2Proof
end

