-- ==== Sys2Proof/Laws/State.lean ====
section
/-! SUPPORT. One lemma per field per update of the state, each true by definition, so that no proof unfolds an update. -/

namespace Sys2Proof.Machine.State

variable (s : State)

/-! ### `writeReg` -/

@[simp] theorem writeReg_regs (k : RegNum) (v : Byte) : (s.writeReg k v).regs = s.regs.set k.toNat v k.isLt := rfl
@[simp] theorem writeReg_pc (k : RegNum) (v : Byte) : (s.writeReg k v).pc = s.pc := rfl
@[simp] theorem writeReg_sp (k : RegNum) (v : Byte) : (s.writeReg k v).sp = s.sp := rfl
@[simp] theorem writeReg_zero (k : RegNum) (v : Byte) : (s.writeReg k v).zero = s.zero := rfl
@[simp] theorem writeReg_portI (k : RegNum) (v : Byte) : (s.writeReg k v).portI = s.portI := rfl
@[simp] theorem writeReg_portQ (k : RegNum) (v : Byte) : (s.writeReg k v).portQ = s.portQ := rfl
@[simp] theorem writeReg_spare (k : RegNum) (v : Byte) : (s.writeReg k v).spare = s.spare := rfl
@[simp] theorem writeReg_mem (k : RegNum) (v : Byte) : (s.writeReg k v).mem = s.mem := rfl
@[simp] theorem writeReg_fault (k : RegNum) (v : Byte) : (s.writeReg k v).fault = s.fault := rfl
@[simp] theorem writeReg_readMem (k : RegNum) (v : Byte) (c : Byte) : (s.writeReg k v).readMem c = s.readMem c := rfl

/-! ### `setPc` -/

@[simp] theorem setPc_regs (v : Byte) : (s.setPc v).regs = s.regs := rfl
@[simp] theorem setPc_pc (v : Byte) : (s.setPc v).pc = v := rfl
@[simp] theorem setPc_sp (v : Byte) : (s.setPc v).sp = s.sp := rfl
@[simp] theorem setPc_zero (v : Byte) : (s.setPc v).zero = s.zero := rfl
@[simp] theorem setPc_portI (v : Byte) : (s.setPc v).portI = s.portI := rfl
@[simp] theorem setPc_portQ (v : Byte) : (s.setPc v).portQ = s.portQ := rfl
@[simp] theorem setPc_spare (v : Byte) : (s.setPc v).spare = s.spare := rfl
@[simp] theorem setPc_mem (v : Byte) : (s.setPc v).mem = s.mem := rfl
@[simp] theorem setPc_fault (v : Byte) : (s.setPc v).fault = s.fault := rfl
@[simp] theorem setPc_readReg (v : Byte) (j : RegNum) : (s.setPc v).readReg j = s.readReg j := rfl
@[simp] theorem setPc_readMem (v : Byte) (c : Byte) : (s.setPc v).readMem c = s.readMem c := rfl

/-! ### `setSp` -/

@[simp] theorem setSp_regs (v : Byte) : (s.setSp v).regs = s.regs := rfl
@[simp] theorem setSp_pc (v : Byte) : (s.setSp v).pc = s.pc := rfl
@[simp] theorem setSp_sp (v : Byte) : (s.setSp v).sp = v := rfl
@[simp] theorem setSp_zero (v : Byte) : (s.setSp v).zero = s.zero := rfl
@[simp] theorem setSp_portI (v : Byte) : (s.setSp v).portI = s.portI := rfl
@[simp] theorem setSp_portQ (v : Byte) : (s.setSp v).portQ = s.portQ := rfl
@[simp] theorem setSp_spare (v : Byte) : (s.setSp v).spare = s.spare := rfl
@[simp] theorem setSp_mem (v : Byte) : (s.setSp v).mem = s.mem := rfl
@[simp] theorem setSp_fault (v : Byte) : (s.setSp v).fault = s.fault := rfl
@[simp] theorem setSp_readReg (v : Byte) (j : RegNum) : (s.setSp v).readReg j = s.readReg j := rfl
@[simp] theorem setSp_readMem (v : Byte) (c : Byte) : (s.setSp v).readMem c = s.readMem c := rfl

/-! ### `setZero` -/

@[simp] theorem setZero_regs (z : Bool) : (s.setZero z).regs = s.regs := rfl
@[simp] theorem setZero_pc (z : Bool) : (s.setZero z).pc = s.pc := rfl
@[simp] theorem setZero_sp (z : Bool) : (s.setZero z).sp = s.sp := rfl
@[simp] theorem setZero_zero (z : Bool) : (s.setZero z).zero = z := rfl
@[simp] theorem setZero_portI (z : Bool) : (s.setZero z).portI = s.portI := rfl
@[simp] theorem setZero_portQ (z : Bool) : (s.setZero z).portQ = s.portQ := rfl
@[simp] theorem setZero_spare (z : Bool) : (s.setZero z).spare = s.spare := rfl
@[simp] theorem setZero_mem (z : Bool) : (s.setZero z).mem = s.mem := rfl
@[simp] theorem setZero_fault (z : Bool) : (s.setZero z).fault = s.fault := rfl
@[simp] theorem setZero_readReg (z : Bool) (j : RegNum) : (s.setZero z).readReg j = s.readReg j := rfl
@[simp] theorem setZero_readMem (z : Bool) (c : Byte) : (s.setZero z).readMem c = s.readMem c := rfl

/-! ### `setPortQ` -/

@[simp] theorem setPortQ_regs (v : Byte) : (s.setPortQ v).regs = s.regs := rfl
@[simp] theorem setPortQ_pc (v : Byte) : (s.setPortQ v).pc = s.pc := rfl
@[simp] theorem setPortQ_sp (v : Byte) : (s.setPortQ v).sp = s.sp := rfl
@[simp] theorem setPortQ_zero (v : Byte) : (s.setPortQ v).zero = s.zero := rfl
@[simp] theorem setPortQ_portI (v : Byte) : (s.setPortQ v).portI = s.portI := rfl
@[simp] theorem setPortQ_portQ (v : Byte) : (s.setPortQ v).portQ = v := rfl
@[simp] theorem setPortQ_spare (v : Byte) : (s.setPortQ v).spare = s.spare := rfl
@[simp] theorem setPortQ_mem (v : Byte) : (s.setPortQ v).mem = s.mem := rfl
@[simp] theorem setPortQ_fault (v : Byte) : (s.setPortQ v).fault = s.fault := rfl
@[simp] theorem setPortQ_readReg (v : Byte) (j : RegNum) : (s.setPortQ v).readReg j = s.readReg j := rfl
@[simp] theorem setPortQ_readMem (v : Byte) (c : Byte) : (s.setPortQ v).readMem c = s.readMem c := rfl

/-! ### `setPortI` -/

@[simp] theorem setPortI_regs (v : Byte) : (s.setPortI v).regs = s.regs := rfl
@[simp] theorem setPortI_pc (v : Byte) : (s.setPortI v).pc = s.pc := rfl
@[simp] theorem setPortI_sp (v : Byte) : (s.setPortI v).sp = s.sp := rfl
@[simp] theorem setPortI_zero (v : Byte) : (s.setPortI v).zero = s.zero := rfl
@[simp] theorem setPortI_portI (v : Byte) : (s.setPortI v).portI = v := rfl
@[simp] theorem setPortI_portQ (v : Byte) : (s.setPortI v).portQ = s.portQ := rfl
@[simp] theorem setPortI_spare (v : Byte) : (s.setPortI v).spare = s.spare := rfl
@[simp] theorem setPortI_mem (v : Byte) : (s.setPortI v).mem = s.mem := rfl
@[simp] theorem setPortI_fault (v : Byte) : (s.setPortI v).fault = s.fault := rfl
@[simp] theorem setPortI_readReg (v : Byte) (j : RegNum) : (s.setPortI v).readReg j = s.readReg j := rfl
@[simp] theorem setPortI_readMem (v : Byte) (c : Byte) : (s.setPortI v).readMem c = s.readMem c := rfl

/-! ### `writeMem` -/

@[simp] theorem writeMem_regs (a v : Byte) : (s.writeMem a v).regs = s.regs := rfl
@[simp] theorem writeMem_pc (a v : Byte) : (s.writeMem a v).pc = s.pc := rfl
@[simp] theorem writeMem_sp (a v : Byte) : (s.writeMem a v).sp = s.sp := rfl
@[simp] theorem writeMem_zero (a v : Byte) : (s.writeMem a v).zero = s.zero := rfl
@[simp] theorem writeMem_portI (a v : Byte) : (s.writeMem a v).portI = s.portI := rfl
@[simp] theorem writeMem_portQ (a v : Byte) : (s.writeMem a v).portQ = s.portQ := rfl
@[simp] theorem writeMem_spare (a v : Byte) : (s.writeMem a v).spare = s.spare := rfl
@[simp] theorem writeMem_mem (a v : Byte) : (s.writeMem a v).mem = s.mem.write a v := rfl
@[simp] theorem writeMem_fault (a v : Byte) : (s.writeMem a v).fault = s.fault := rfl
@[simp] theorem writeMem_readReg (a v : Byte) (j : RegNum) : (s.writeMem a v).readReg j = s.readReg j := rfl

/-! ### `latchFault` -/

@[simp] theorem latchFault_regs : s.latchFault.regs = s.regs := rfl
@[simp] theorem latchFault_pc : s.latchFault.pc = s.pc := rfl
@[simp] theorem latchFault_sp : s.latchFault.sp = s.sp := rfl
@[simp] theorem latchFault_zero : s.latchFault.zero = s.zero := rfl
@[simp] theorem latchFault_portI : s.latchFault.portI = s.portI := rfl
@[simp] theorem latchFault_portQ : s.latchFault.portQ = s.portQ := rfl
@[simp] theorem latchFault_spare : s.latchFault.spare = s.spare := rfl
@[simp] theorem latchFault_mem : s.latchFault.mem = s.mem := rfl
@[simp] theorem latchFault_fault : s.latchFault.fault = true := rfl
@[simp] theorem latchFault_readReg (j : RegNum) : s.latchFault.readReg j = s.readReg j := rfl
@[simp] theorem latchFault_readMem (c : Byte) : s.latchFault.readMem c = s.readMem c := rfl

/-! ### `advancePc` -/

@[simp] theorem advancePc_regs : s.advancePc.regs = s.regs := rfl
@[simp] theorem advancePc_pc : s.advancePc.pc = s.pc + 2 := rfl
@[simp] theorem advancePc_sp : s.advancePc.sp = s.sp := rfl
@[simp] theorem advancePc_zero : s.advancePc.zero = s.zero := rfl
@[simp] theorem advancePc_portI : s.advancePc.portI = s.portI := rfl
@[simp] theorem advancePc_portQ : s.advancePc.portQ = s.portQ := rfl
@[simp] theorem advancePc_spare : s.advancePc.spare = s.spare := rfl
@[simp] theorem advancePc_mem : s.advancePc.mem = s.mem := rfl
@[simp] theorem advancePc_fault : s.advancePc.fault = s.fault := rfl
@[simp] theorem advancePc_readReg (j : RegNum) : s.advancePc.readReg j = s.readReg j := rfl
@[simp] theorem advancePc_readMem (c : Byte) : s.advancePc.readMem c = s.readMem c := rfl

/-! ### `push` -/

@[simp] theorem push_regs (v : Byte) : (s.push v).regs = s.regs := rfl
@[simp] theorem push_pc (v : Byte) : (s.push v).pc = s.pc := rfl
@[simp] theorem push_sp (v : Byte) : (s.push v).sp = s.sp - 1 := rfl
@[simp] theorem push_zero (v : Byte) : (s.push v).zero = s.zero := rfl
@[simp] theorem push_portI (v : Byte) : (s.push v).portI = s.portI := rfl
@[simp] theorem push_portQ (v : Byte) : (s.push v).portQ = s.portQ := rfl
@[simp] theorem push_spare (v : Byte) : (s.push v).spare = s.spare := rfl
@[simp] theorem push_mem (v : Byte) : (s.push v).mem = s.mem.write (s.sp - 1) v := rfl
@[simp] theorem push_fault (v : Byte) : (s.push v).fault = s.fault := rfl
@[simp] theorem push_readReg (v : Byte) (j : RegNum) : (s.push v).readReg j = s.readReg j := rfl

/-! ### `dropTop` -/

@[simp] theorem dropTop_regs : s.dropTop.regs = s.regs := rfl
@[simp] theorem dropTop_pc : s.dropTop.pc = s.pc := rfl
@[simp] theorem dropTop_sp : s.dropTop.sp = s.sp + 1 := rfl
@[simp] theorem dropTop_zero : s.dropTop.zero = s.zero := rfl
@[simp] theorem dropTop_portI : s.dropTop.portI = s.portI := rfl
@[simp] theorem dropTop_portQ : s.dropTop.portQ = s.portQ := rfl
@[simp] theorem dropTop_spare : s.dropTop.spare = s.spare := rfl
@[simp] theorem dropTop_mem : s.dropTop.mem = s.mem := rfl
@[simp] theorem dropTop_fault : s.dropTop.fault = s.fault := rfl
@[simp] theorem dropTop_readReg (j : RegNum) : s.dropTop.readReg j = s.readReg j := rfl
@[simp] theorem dropTop_readMem (c : Byte) : s.dropTop.readMem c = s.readMem c := rfl

/-! ### `writeResult` -/

@[simp] theorem writeResult_regs (d : RegNum) (v : Byte) : (s.writeResult d v).regs = s.regs.set d.toNat v d.isLt := rfl
@[simp] theorem writeResult_pc (d : RegNum) (v : Byte) : (s.writeResult d v).pc = s.pc := rfl
@[simp] theorem writeResult_sp (d : RegNum) (v : Byte) : (s.writeResult d v).sp = s.sp := rfl
@[simp] theorem writeResult_portI (d : RegNum) (v : Byte) : (s.writeResult d v).portI = s.portI := rfl
@[simp] theorem writeResult_portQ (d : RegNum) (v : Byte) : (s.writeResult d v).portQ = s.portQ := rfl
@[simp] theorem writeResult_spare (d : RegNum) (v : Byte) : (s.writeResult d v).spare = s.spare := rfl
@[simp] theorem writeResult_mem (d : RegNum) (v : Byte) : (s.writeResult d v).mem = s.mem := rfl
@[simp] theorem writeResult_fault (d : RegNum) (v : Byte) : (s.writeResult d v).fault = s.fault := rfl
@[simp] theorem writeResult_readMem (d : RegNum) (v : Byte) (c : Byte) : (s.writeResult d v).readMem c = s.readMem c := rfl

/-! ### `jumpIf` changes PC and nothing else -/

theorem jumpIf_eq (c : Bool) (o : Byte) : s.jumpIf c o = s.setPc (if c then s.pc + o else s.pc) := by
  cases c <;> rfl

@[simp] theorem jumpIf_pc (c : Bool) (o : Byte) : (s.jumpIf c o).pc = if c then s.pc + o else s.pc := by
  rw [jumpIf_eq, setPc_pc]

@[simp] theorem jumpIf_regs (c : Bool) (o : Byte) : (s.jumpIf c o).regs = s.regs := by
  rw [jumpIf_eq, setPc_regs]

@[simp] theorem jumpIf_sp (c : Bool) (o : Byte) : (s.jumpIf c o).sp = s.sp := by
  rw [jumpIf_eq, setPc_sp]

@[simp] theorem jumpIf_zero (c : Bool) (o : Byte) : (s.jumpIf c o).zero = s.zero := by
  rw [jumpIf_eq, setPc_zero]

@[simp] theorem jumpIf_portI (c : Bool) (o : Byte) : (s.jumpIf c o).portI = s.portI := by
  rw [jumpIf_eq, setPc_portI]

@[simp] theorem jumpIf_portQ (c : Bool) (o : Byte) : (s.jumpIf c o).portQ = s.portQ := by
  rw [jumpIf_eq, setPc_portQ]

@[simp] theorem jumpIf_spare (c : Bool) (o : Byte) : (s.jumpIf c o).spare = s.spare := by
  rw [jumpIf_eq, setPc_spare]

@[simp] theorem jumpIf_mem (c : Bool) (o : Byte) : (s.jumpIf c o).mem = s.mem := by
  rw [jumpIf_eq, setPc_mem]

@[simp] theorem jumpIf_fault (c : Bool) (o : Byte) : (s.jumpIf c o).fault = s.fault := by
  rw [jumpIf_eq, setPc_fault]

@[simp] theorem jumpIf_readReg (c : Bool) (o : Byte) (j : RegNum) : (s.jumpIf c o).readReg j = s.readReg j := by
  rw [jumpIf_eq, setPc_readReg]

@[simp] theorem jumpIf_readMem (c : Bool) (o b : Byte) : (s.jumpIf c o).readMem b = s.readMem b := by
  rw [jumpIf_eq, setPc_readMem]

end Sys2Proof.Machine.State
end

