-- ==== Sys2Proof/Laws/Memory.lean ====
section
/-! SUPPORT. The laws of memory: a read after a write (rule R33 of `20_memory.md`), for every list of cells; and that every
memory operation keeps the canonical form. -/

namespace Sys2Proof.Machine

namespace Memory

theorem read_erase_same (m : Memory) (a : Byte) : (m.erase a).read a = unlistedByte := by
  induction m with
  | nil => rfl
  | cons c m ih =>
    unfold erase at ih ⊢
    by_cases h : c.1 = a.toNat
    · simpa [h] using ih
    · simpa [List.filter_cons, h, read] using ih

theorem read_erase_ne (m : Memory) {a b : Byte} (h : b ≠ a) : (m.erase a).read b = m.read b := by
  have hn : b.toNat ≠ a.toNat := fun e => h (BitVec.eq_of_toNat_eq e)
  induction m with
  | nil => rfl
  | cons c m ih =>
    unfold erase at ih ⊢
    by_cases hc : c.1 = a.toNat
    · have : ¬ c.1 = b.toNat := by omega
      simpa [List.filter_cons, hc, read, hn.symm] using ih
    · by_cases hb : c.1 = b.toNat <;> simp [hc, read, hb, hn, ih]

theorem read_insert_same (m : Memory) (a v : Byte) (h : ∀ c ∈ m, c.1 ≠ a.toNat) :
    (m.insert (a.toNat, v)).read a = v := by
  induction m with
  | nil => simp [insert, read]
  | cons c m ih =>
    have hc : c.1 ≠ a.toNat := h c (by simp)
    have ih := ih fun c' h' => h c' (by simp [h'])
    unfold insert
    split <;> simp [read, hc, ih]

theorem read_insert_ne (m : Memory) {a b : Byte} (v : Byte) (h : b ≠ a) :
    (m.insert (a.toNat, v)).read b = m.read b := by
  have hn : ¬ a.toNat = b.toNat := fun e => h (BitVec.eq_of_toNat_eq e.symm)
  induction m with
  | nil => simp [insert, read, hn]
  | cons c m ih =>
    unfold insert
    split <;> simp [read, hn, ih]

theorem not_mem_erase (m : Memory) (a : Byte) : ∀ c ∈ m.erase a, c.1 ≠ a.toNat := by
  intro c hc
  simpa using (List.mem_filter.1 hc).2

/-- The byte written is the byte read back (R33). -/
@[simp] theorem read_write_same (m : Memory) (a v : Byte) : (m.write a v).read a = v := by
  unfold write
  split
  · rw [read_erase_same]; simp_all
  · exact read_insert_same _ _ _ (not_mem_erase m a)

/-- A write changes no other byte (R33). -/
theorem read_write_ne (m : Memory) {a b : Byte} (v : Byte) (h : b ≠ a) : (m.write a v).read b = m.read b := by
  unfold write
  split
  · exact read_erase_ne m h
  · rw [read_insert_ne _ _ h, read_erase_ne m h]

theorem read_write (m : Memory) (a v b : Byte) : (m.write a v).read b = if b = a then v else m.read b := by
  split
  · next h => rw [h, read_write_same]
  · next h => exact read_write_ne m v h

/-! ### The canonical form -/

theorem wf_nil : Memory.wf [] := ⟨List.Pairwise.nil, by simp⟩

theorem wf_erase {m : Memory} (h : m.wf) (a : Byte) : (m.erase a).wf :=
  ⟨h.1.filter _, fun c hc => h.2 c (List.mem_filter.1 hc).1⟩

theorem mem_insert (m : Memory) (c : Host.Cell) {x : Host.Cell} (h : x ∈ m.insert c) : x = c ∨ x ∈ m := by
  induction m with
  | nil => simpa [insert] using h
  | cons c' m ih =>
    unfold insert at h
    split at h
    · simpa using h
    · rcases List.mem_cons.1 h with h | h
      · simp [h]
      · rcases ih h with h | h <;> simp [h]

theorem pairwise_insert {m : Memory} (h : m.Pairwise (fun c c' => c.1 < c'.1)) (c : Host.Cell)
    (hc : ∀ c' ∈ m, c'.1 ≠ c.1) : (m.insert c).Pairwise (fun c c' => c.1 < c'.1) := by
  induction m with
  | nil => simp [insert]
  | cons c' m ih =>
    obtain ⟨h1, h2⟩ := List.pairwise_cons.1 h
    unfold insert
    split
    · next hlt =>
      refine List.pairwise_cons.2 ⟨fun x hx => ?_, h⟩
      rcases List.mem_cons.1 hx with hx | hx
      · rwa [hx]
      · exact Nat.lt_trans hlt (h1 x hx)
    · next hlt =>
      refine List.pairwise_cons.2 ⟨fun x hx => ?_, ih h2 fun c'' h'' => hc c'' (by simp [h''])⟩
      rcases mem_insert m c hx with hx | hx
      · have := hc c' (by simp)
        rw [hx]; omega
      · exact h1 x hx

/-- A write keeps the canonical form. -/
theorem wf_write {m : Memory} (h : m.wf) (a v : Byte) : (m.write a v).wf := by
  unfold write
  split
  · exact wf_erase h a
  · next hv =>
    have he := wf_erase h a
    refine ⟨pairwise_insert he.1 _ (not_mem_erase m a), fun c hc => ?_⟩
    rcases mem_insert _ _ hc with hc | hc
    · rw [hc]; exact ⟨a.isLt, hv⟩
    · exact he.2 c hc

theorem wf_reset : State.reset.mem.wf := wf_nil

end Memory

namespace State

@[simp] theorem writeMem_readMem_same (s : State) (a v : Byte) : (s.writeMem a v).readMem a = v :=
  Memory.read_write_same _ _ _

theorem writeMem_readMem_ne (s : State) {a b : Byte} (v : Byte) (h : b ≠ a) :
    (s.writeMem a v).readMem b = s.readMem b :=
  Memory.read_write_ne _ _ h

theorem writeMem_readMem (s : State) (a v b : Byte) :
    (s.writeMem a v).readMem b = if b = a then v else s.readMem b :=
  Memory.read_write _ _ _ _

theorem push_readMem (s : State) (v b : Byte) :
    (s.push v).readMem b = if b = s.sp - 1 then v else s.readMem b :=
  Memory.read_write _ _ _ _

end State

end Sys2Proof.Machine
end

