-- ==== Sys2Proof/Laws/Ops.lean ====
section
/-! SUPPORT. What the register operations and the flag operation do, said once (rules R11 and R116). -/

namespace Sys2Proof.Machine.State

variable (s : State)

@[simp] theorem writeReg_readReg_same (k : RegNum) (v : Byte) : (s.writeReg k v).readReg k = v := by
  simp [readReg, writeReg]

theorem writeReg_readReg_ne {k j : RegNum} (v : Byte) (h : j ≠ k) : (s.writeReg k v).readReg j = s.readReg j := by
  have : k.toNat ≠ j.toNat := fun e => h (BitVec.eq_of_toNat_eq e.symm)
  simp [readReg, writeReg, Vector.getElem_set_ne, this]

theorem writeReg_readReg (k : RegNum) (v : Byte) (j : RegNum) :
    (s.writeReg k v).readReg j = if j = k then v else s.readReg j := by
  split
  · next h => rw [h, writeReg_readReg_same]
  · next h => exact writeReg_readReg_ne s v h

/-- Writing back what a register holds changes nothing. -/
theorem writeReg_readReg_self (k : RegNum) : s.writeReg k (s.readReg k) = s := by
  simp [readReg, writeReg]

@[simp] theorem writeResult_readReg_same (d : RegNum) (v : Byte) : (s.writeResult d v).readReg d = v :=
  writeReg_readReg_same s d v

theorem writeResult_readReg_ne {d j : RegNum} (v : Byte) (h : j ≠ d) :
    (s.writeResult d v).readReg j = s.readReg j :=
  writeReg_readReg_ne s v h

theorem writeResult_readReg (d : RegNum) (v : Byte) (j : RegNum) :
    (s.writeResult d v).readReg j = if j = d then v else s.readReg j :=
  writeReg_readReg s d v j

/-- Z is computed from the byte stored (R116). -/
@[simp] theorem writeResult_zero (d : RegNum) (v : Byte) : (s.writeResult d v).zero = (v == 0) := by
  simp [writeResult, recomputeZero, zeroFlagOf]

/-- The old flag plays no part in a result (R116). -/
theorem writeResult_setZero (z : Bool) (d : RegNum) (v : Byte) :
    (s.setZero z).writeResult d v = s.writeResult d v := rfl

/-- Two states with the same fields are equal. -/
theorem eq_of_fields {s t : State} (regs : s.regs = t.regs) (pc : s.pc = t.pc) (sp : s.sp = t.sp)
    (zero : s.zero = t.zero) (portI : s.portI = t.portI) (portQ : s.portQ = t.portQ) (spare : s.spare = t.spare)
    (mem : s.mem = t.mem) (fault : s.fault = t.fault) : s = t := by
  cases s; cases t; simp_all

end Sys2Proof.Machine.State
end

