-- ==== Sys2Proof/Laws/Exec.lean ====
section
/-! SUPPORT. What `exec` and `step` do, said once. `execNext` is the state every effect gives, so `exec` answers a next
state for each instruction; `step_cases` and `stepUnder_cases` list what a step can do. Later proofs cite these. -/

namespace Sys2Proof.Machine

/-- The state an effect gives, under a shift setting; the next-state half of `exec` and `execUnder`. -/
def execNext (inverted : Bool) (i : Instr) (s : State) : State :=
  match i with
  | .movi d b => s.writeReg d b
  | .mov d r => s.writeReg d (s.readReg r)
  | .add d r => s.writeResult d (s.readReg d + s.readReg r)
  | .sub d r => s.writeResult d (s.readReg d - s.readReg r)
  | .and d r => s.writeResult d (s.readReg d &&& s.readReg r)
  | .eor d r => s.writeResult d (s.readReg d ^^^ s.readReg r)
  | .inc d => s.writeResult d (s.readReg d + 1)
  | .dec d => s.writeResult d (s.readReg d - 1)
  | .inI d => s.writeResult d s.portI
  | .outQ r => s.setPortQ (s.readReg r)
  | .jp o => s.jumpIf true o
  | .jz o => s.jumpIf s.zero o
  | .jnz o => s.jumpIf (!s.zero) o
  | .rcall o => (s.push s.pc).jumpIf true o
  | .ret => (s.setPc s.top).dropTop
  | .shl d => s.shlUnder inverted d
  | .shr d => s.shrUnder inverted d

theorem execUnder_eq (cfg : Config) (i : Instr) (s : State) :
    execUnder cfg i s = .next (execNext cfg.shiftInverted i s) := by
  cases i <;> rfl

theorem exec_eq (i : Instr) (s : State) : exec i s = .next (execNext machineConfig.shiftInverted i s) := by
  cases i <;> rfl

/-- `exec` is the effect at the default configuration. -/
theorem execUnder_machineConfig (i : Instr) (s : State) : execUnder machineConfig i s = exec i s := by
  rw [execUnder_eq, exec_eq]

/-- `step` is the step at the default configuration. -/
theorem stepUnder_machineConfig (s : State) : stepUnder machineConfig s = step s := by
  unfold stepUnder step State.fetch
  split
  · rfl
  · split <;> simp_all [execUnder_machineConfig]

/-! ### What a step can do -/

theorem stepUnder_of_fault {s : State} (cfg : Config) (h : s.fault = true) : stepUnder cfg s = .fault .faultLatched := by
  simp [stepUnder, h, stepWhenFaulted]

theorem stepUnder_of_instr {cfg : Config} {s : State} {i : Instr} (h : s.fault = false)
    (hf : s.fetchUnder cfg.opMap = .instr i) :
    stepUnder cfg s = .next (execNext cfg.shiftInverted i s.advancePc) := by
  simp [stepUnder, h, hf, execUnder_eq]

theorem stepUnder_of_unmapped {cfg : Config} {s : State} {opc : Opcode} (h : s.fault = false)
    (hf : s.fetchUnder cfg.opMap = .unmapped opc) : stepUnder cfg s = raiseIllegalOpcode cfg.illegalPolicy s := by
  simp [stepUnder, h, hf]

/-- A step that gives a next state ran an instruction, or under the policy `nop` skipped an unmapped opcode. -/
theorem stepUnder_cases {cfg : Config} {s t : State} (h : stepUnder cfg s = .next t) :
    s.fault = false ∧
      ((∃ i, s.fetchUnder cfg.opMap = .instr i ∧ t = execNext cfg.shiftInverted i s.advancePc) ∨
        (∃ opc, s.fetchUnder cfg.opMap = .unmapped opc ∧ cfg.illegalPolicy = .nop ∧ t = s.advancePc)) := by
  cases hs : s.fault with
  | true => simp [stepUnder_of_fault cfg hs] at h
  | false =>
    refine ⟨rfl, ?_⟩
    cases hf : s.fetchUnder cfg.opMap with
    | instr i =>
      rw [stepUnder_of_instr hs hf] at h
      exact .inl ⟨i, rfl, by simpa using h.symm⟩
    | unmapped opc =>
      rw [stepUnder_of_unmapped hs hf] at h
      cases hp : cfg.illegalPolicy with
      | fault => simp [raiseIllegalOpcode, hp] at h
      | nop => exact .inr ⟨opc, rfl, rfl, by simpa [raiseIllegalOpcode, hp] using h.symm⟩

/-- A step of this machine that gives a next state ran an instruction. -/
theorem step_cases {s t : State} (h : step s = .next t) :
    s.fault = false ∧ ∃ i, s.fetch = .instr i ∧ t = execNext machineConfig.shiftInverted i s.advancePc := by
  rw [← stepUnder_machineConfig] at h
  obtain ⟨hf, ⟨i, hi, rfl⟩ | ⟨_, _, hp, _⟩⟩ := stepUnder_cases h
  · exact ⟨hf, i, hi, rfl⟩
  · cases hp

/-! ### What every effect leaves alone -/

section
variable (v : Bool) (i : Instr) (s : State)

@[simp] theorem execNext_portI : (execNext v i s).portI = s.portI := by
  cases i <;> simp [execNext, State.shlUnder, State.shrUnder]

@[simp] theorem execNext_spare : (execNext v i s).spare = s.spare := by
  cases i <;> simp [execNext, State.shlUnder, State.shrUnder]

@[simp] theorem execNext_fault : (execNext v i s).fault = s.fault := by
  cases i <;> simp [execNext, State.shlUnder, State.shrUnder]

/-- Only `rcall` writes memory, the one byte of its push (R31, R133). -/
theorem execNext_mem : (execNext v i s).mem =
    match i with
    | .rcall _ => s.mem.write (s.sp - 1) s.pc
    | _ => s.mem := by
  cases i <;> simp [execNext, State.shlUnder, State.shrUnder]

end

end Sys2Proof.Machine
end

