-- ==== Sys2Proof/Laws/PerInstr.lean ====
section
/-! SUPPORT. Facts about each instruction as syntax, one lemma per constructor: `EncodedForm`, that its encoded bytes carry
its opcode and its operands under every opcode map (rules R51, R54); `WellFormed`, that it passes the checks and is the
instruction its own term stands for. -/

/-- The encoded bytes carry the opcode of the mnemonic, and the descriptor rebuilds the instruction from their fields. -/
def Sys2Proof.Laws.EncodedForm.Statement (i : Sys2Proof.Instr) : Prop :=
  ∀ m : Sys2Proof.OpMap,
    Sys2Proof.opcodeField (Sys2Proof.encodeUnder m i).1 = m i.mnemonic ∧
    Sys2Proof.instrOf i.mnemonic (Sys2Proof.destField (Sys2Proof.encodeUnder m i).1)
      (Sys2Proof.srcField (Sys2Proof.encodeUnder m i).2) (Sys2Proof.encodeUnder m i).2 = i

/-- The instruction is well formed, and its term stands for it. -/
def Sys2Proof.Laws.WellFormed.Statement (i : Sys2Proof.Instr) : Prop :=
  i.wf = true ∧ i.raw.toInstr = some i

namespace Sys2Proof.Laws

/-! ### EncodedForm -/

theorem EncodedForm.movi (d : RegNum) (b : Byte) : EncodedForm.Statement (.movi d b) :=
  fun _ => ⟨by simp [encodeUnder, Instr.mnemonic], by simp [encodeUnder, Instr.mnemonic, instrOf]⟩

theorem EncodedForm.mov (d r : RegNum) : EncodedForm.Statement (.mov d r) :=
  fun _ => ⟨by simp [encodeUnder, Instr.mnemonic], by simp [encodeUnder, Instr.mnemonic, instrOf]⟩

theorem EncodedForm.add (d r : RegNum) : EncodedForm.Statement (.add d r) :=
  fun _ => ⟨by simp [encodeUnder, Instr.mnemonic], by simp [encodeUnder, Instr.mnemonic, instrOf]⟩

theorem EncodedForm.sub (d r : RegNum) : EncodedForm.Statement (.sub d r) :=
  fun _ => ⟨by simp [encodeUnder, Instr.mnemonic], by simp [encodeUnder, Instr.mnemonic, instrOf]⟩

theorem EncodedForm.and (d r : RegNum) : EncodedForm.Statement (.and d r) :=
  fun _ => ⟨by simp [encodeUnder, Instr.mnemonic], by simp [encodeUnder, Instr.mnemonic, instrOf]⟩

theorem EncodedForm.eor (d r : RegNum) : EncodedForm.Statement (.eor d r) :=
  fun _ => ⟨by simp [encodeUnder, Instr.mnemonic], by simp [encodeUnder, Instr.mnemonic, instrOf]⟩

theorem EncodedForm.inc (d : RegNum) : EncodedForm.Statement (.inc d) :=
  fun _ => ⟨by simp [encodeUnder, Instr.mnemonic], by simp [encodeUnder, Instr.mnemonic, instrOf]⟩

theorem EncodedForm.dec (d : RegNum) : EncodedForm.Statement (.dec d) :=
  fun _ => ⟨by simp [encodeUnder, Instr.mnemonic], by simp [encodeUnder, Instr.mnemonic, instrOf]⟩

theorem EncodedForm.inI (d : RegNum) : EncodedForm.Statement (.inI d) :=
  fun _ => ⟨by simp [encodeUnder, Instr.mnemonic], by simp [encodeUnder, Instr.mnemonic, instrOf]⟩

theorem EncodedForm.outQ (r : RegNum) : EncodedForm.Statement (.outQ r) :=
  fun _ => ⟨by simp [encodeUnder, Instr.mnemonic], by simp [encodeUnder, Instr.mnemonic, instrOf]⟩

theorem EncodedForm.jp (o : Byte) : EncodedForm.Statement (.jp o) :=
  fun _ => ⟨by simp [encodeUnder, Instr.mnemonic], by simp [encodeUnder, Instr.mnemonic, instrOf]⟩

theorem EncodedForm.jz (o : Byte) : EncodedForm.Statement (.jz o) :=
  fun _ => ⟨by simp [encodeUnder, Instr.mnemonic], by simp [encodeUnder, Instr.mnemonic, instrOf]⟩

theorem EncodedForm.jnz (o : Byte) : EncodedForm.Statement (.jnz o) :=
  fun _ => ⟨by simp [encodeUnder, Instr.mnemonic], by simp [encodeUnder, Instr.mnemonic, instrOf]⟩

theorem EncodedForm.rcall (o : Byte) : EncodedForm.Statement (.rcall o) :=
  fun _ => ⟨by simp [encodeUnder, Instr.mnemonic], by simp [encodeUnder, Instr.mnemonic, instrOf]⟩

theorem EncodedForm.ret : EncodedForm.Statement .ret :=
  fun _ => ⟨by simp [encodeUnder, Instr.mnemonic], rfl⟩

theorem EncodedForm.shl (d : RegNum) : EncodedForm.Statement (.shl d) :=
  fun _ => ⟨by simp [encodeUnder, Instr.mnemonic], by simp [encodeUnder, Instr.mnemonic, instrOf]⟩

theorem EncodedForm.shr (d : RegNum) : EncodedForm.Statement (.shr d) :=
  fun _ => ⟨by simp [encodeUnder, Instr.mnemonic], by simp [encodeUnder, Instr.mnemonic, instrOf]⟩

/-! ### WellFormed -/

theorem reg_lt (d : RegNum) : d.toNat < 8 := d.isLt

theorem byte_lt (b : Byte) : b.toNat < 256 := b.isLt

/-- A term that passes the checks and is read back as the instruction is well formed and stands for it. -/
theorem WellFormed.of_checks {i : Instr} (h : i.raw.rangesOk = true) (ha : (i.raw.arityOk && i.raw.kindsOk) = true)
    (hr : i.raw.wf = true → i.raw.toInstr = some i) : WellFormed.Statement i :=
  have hw : i.raw.wf = true := by simp_all [RawInstr.wf]
  ⟨hw, hr hw⟩

theorem WellFormed.movi (d : RegNum) (b : Byte) : WellFormed.Statement (.movi d b) :=
  WellFormed.of_checks (by simp [RawInstr.rangesOk, Instr.raw, RawOperand.inRange, reg_lt, byte_lt]) rfl
    fun h => by simp_all [RawInstr.toInstr, Instr.raw]

theorem WellFormed.mov (d r : RegNum) : WellFormed.Statement (.mov d r) :=
  WellFormed.of_checks (by simp [RawInstr.rangesOk, Instr.raw, RawOperand.inRange, reg_lt]) rfl
    fun h => by simp_all [RawInstr.toInstr, Instr.raw]

theorem WellFormed.add (d r : RegNum) : WellFormed.Statement (.add d r) :=
  WellFormed.of_checks (by simp [RawInstr.rangesOk, Instr.raw, RawOperand.inRange, reg_lt]) rfl
    fun h => by simp_all [RawInstr.toInstr, Instr.raw]

theorem WellFormed.sub (d r : RegNum) : WellFormed.Statement (.sub d r) :=
  WellFormed.of_checks (by simp [RawInstr.rangesOk, Instr.raw, RawOperand.inRange, reg_lt]) rfl
    fun h => by simp_all [RawInstr.toInstr, Instr.raw]

theorem WellFormed.and (d r : RegNum) : WellFormed.Statement (.and d r) :=
  WellFormed.of_checks (by simp [RawInstr.rangesOk, Instr.raw, RawOperand.inRange, reg_lt]) rfl
    fun h => by simp_all [RawInstr.toInstr, Instr.raw]

theorem WellFormed.eor (d r : RegNum) : WellFormed.Statement (.eor d r) :=
  WellFormed.of_checks (by simp [RawInstr.rangesOk, Instr.raw, RawOperand.inRange, reg_lt]) rfl
    fun h => by simp_all [RawInstr.toInstr, Instr.raw]

theorem WellFormed.inc (d : RegNum) : WellFormed.Statement (.inc d) :=
  WellFormed.of_checks (by simp [RawInstr.rangesOk, Instr.raw, RawOperand.inRange, reg_lt]) rfl
    fun h => by simp_all [RawInstr.toInstr, Instr.raw]

theorem WellFormed.dec (d : RegNum) : WellFormed.Statement (.dec d) :=
  WellFormed.of_checks (by simp [RawInstr.rangesOk, Instr.raw, RawOperand.inRange, reg_lt]) rfl
    fun h => by simp_all [RawInstr.toInstr, Instr.raw]

theorem WellFormed.inI (d : RegNum) : WellFormed.Statement (.inI d) :=
  WellFormed.of_checks (by simp [RawInstr.rangesOk, Instr.raw, RawOperand.inRange, reg_lt]) rfl
    fun h => by simp_all [RawInstr.toInstr, Instr.raw]

theorem WellFormed.outQ (r : RegNum) : WellFormed.Statement (.outQ r) :=
  WellFormed.of_checks (by simp [RawInstr.rangesOk, Instr.raw, RawOperand.inRange, reg_lt]) rfl
    fun h => by simp_all [RawInstr.toInstr, Instr.raw]

theorem WellFormed.jp (o : Byte) : WellFormed.Statement (.jp o) :=
  WellFormed.of_checks (by simp [RawInstr.rangesOk, Instr.raw, RawOperand.inRange, byte_lt]) rfl
    fun h => by simp_all [RawInstr.toInstr, Instr.raw]

theorem WellFormed.jz (o : Byte) : WellFormed.Statement (.jz o) :=
  WellFormed.of_checks (by simp [RawInstr.rangesOk, Instr.raw, RawOperand.inRange, byte_lt]) rfl
    fun h => by simp_all [RawInstr.toInstr, Instr.raw]

theorem WellFormed.jnz (o : Byte) : WellFormed.Statement (.jnz o) :=
  WellFormed.of_checks (by simp [RawInstr.rangesOk, Instr.raw, RawOperand.inRange, byte_lt]) rfl
    fun h => by simp_all [RawInstr.toInstr, Instr.raw]

theorem WellFormed.rcall (o : Byte) : WellFormed.Statement (.rcall o) :=
  WellFormed.of_checks (by simp [RawInstr.rangesOk, Instr.raw, RawOperand.inRange, byte_lt]) rfl
    fun h => by simp_all [RawInstr.toInstr, Instr.raw]

theorem WellFormed.ret : WellFormed.Statement .ret :=
  WellFormed.of_checks (by simp [RawInstr.rangesOk, Instr.raw]) rfl
    fun h => by simp_all [RawInstr.toInstr, Instr.raw]

theorem WellFormed.shl (d : RegNum) : WellFormed.Statement (.shl d) :=
  WellFormed.of_checks (by simp [RawInstr.rangesOk, Instr.raw, RawOperand.inRange, reg_lt]) rfl
    fun h => by simp_all [RawInstr.toInstr, Instr.raw]

theorem WellFormed.shr (d : RegNum) : WellFormed.Statement (.shr d) :=
  WellFormed.of_checks (by simp [RawInstr.rangesOk, Instr.raw, RawOperand.inRange, reg_lt]) rfl
    fun h => by simp_all [RawInstr.toInstr, Instr.raw]

/-- Every instruction is well formed: its operand types carry the bounds. -/
theorem wf_of_instr (i : Instr) : i.wf = true := by
  cases i with
  | movi d b => exact (WellFormed.movi d b).1
  | mov d r => exact (WellFormed.mov d r).1
  | add d r => exact (WellFormed.add d r).1
  | sub d r => exact (WellFormed.sub d r).1
  | and d r => exact (WellFormed.and d r).1
  | eor d r => exact (WellFormed.eor d r).1
  | inc d => exact (WellFormed.inc d).1
  | dec d => exact (WellFormed.dec d).1
  | inI d => exact (WellFormed.inI d).1
  | outQ r => exact (WellFormed.outQ r).1
  | jp o => exact (WellFormed.jp o).1
  | jz o => exact (WellFormed.jz o).1
  | jnz o => exact (WellFormed.jnz o).1
  | rcall o => exact (WellFormed.rcall o).1
  | ret => exact (WellFormed.ret).1
  | shl d => exact (WellFormed.shl d).1
  | shr d => exact (WellFormed.shr d).1

end Sys2Proof.Laws
end

