-- ==== Sys2Proof/Laws/Platform.lean ====
section
/-! SUPPORT. The state operations that write memory keep its canonical form, loading an image changes memory alone
(rule R171 of `70_reset_and_hazards.md`), and what an event does to the machine, said once: `apply_cases`. -/

namespace Sys2Proof.Machine.State

theorem writeMem_wf {s : State} (h : s.mem.wf) (a v : Byte) : (s.writeMem a v).mem.wf := Memory.wf_write h a v

theorem push_wf {s : State} (h : s.mem.wf) (v : Byte) : (s.push v).mem.wf := Memory.wf_write h _ v

theorem placeInstr_wf {s : State} (h : s.mem.wf) (b : Byte × Byte) : (s.placeInstr b).mem.wf :=
  Memory.wf_write (Memory.wf_write h _ _) _ _

theorem withFetchWord_wf {s : State} (h : s.mem.wf) (nbits w : Nat) : (s.withFetchWord nbits w).mem.wf :=
  placeInstr_wf h _

theorem writeImage_wf (image : List Byte) {s : State} (h : s.mem.wf) (a : Byte) : (s.writeImage a image).mem.wf := by
  induction image generalizing s a with
  | nil => exact h
  | cons v image ih => exact ih (writeMem_wf h a v) (a + 1)

theorem edit_wf {s : State} (h : s.mem.wf) (e : HostEdit) : (s.edit e).mem.wf := by
  cases e with
  | mem a v => exact writeMem_wf h a v
  | _ => exact h

/-- Writing an image changes memory and nothing else. -/
theorem writeImage_eq (image : List Byte) (s : State) (a : Byte) :
    s.writeImage a image = { s with mem := (s.writeImage a image).mem } := by
  induction image generalizing s a with
  | nil => rfl
  | cons v image ih => exact ih (s.writeMem a v) (a + 1)

/-- What a loaded image leaves at each address: the image from `a` upward, what was there elsewhere. -/
theorem writeImage_readMem (image : List Byte) (s : State) (a b : Byte) (h : a.toNat + image.length ≤ 256) :
    (s.writeImage a image).readMem b =
      if a.toNat ≤ b.toNat then (image[b.toNat - a.toNat]?).getD (s.readMem b) else s.readMem b := by
  induction image generalizing s a with
  | nil => simp [writeImage]
  | cons v image ih =>
    simp only [List.length_cons] at h
    unfold writeImage
    have hb : b = a ↔ b.toNat = a.toNat := BitVec.toNat_inj.symm
    obtain rfl | himage := eq_or_ne image []
    · simp only [writeImage, writeMem_readMem, hb]
      rcases lt_trichotomy b.toNat a.toNat with hl | he | hg
      · simp [hl.ne, hl]
      · simp [he]
      · obtain ⟨n, hn⟩ : ∃ n, b.toNat - a.toNat = n + 1 := ⟨b.toNat - a.toNat - 1, by omega⟩
        simp [hg.ne', hg.le, hn]
    · have hl : 0 < image.length := List.length_pos_iff.2 himage
      have ha : (a + 1).toNat = a.toNat + 1 := by simp; omega
      rw [ih _ _ (by omega), ha, writeMem_readMem]
      rcases lt_trichotomy b.toNat a.toNat with hl | he | hg
      · simp [hb, hl.ne, hl.not_ge, hl.le.not_gt]
      · simp [hb, he]
      · obtain ⟨n, hn⟩ : ∃ n, b.toNat - a.toNat = n + 1 := ⟨b.toNat - a.toNat - 1, by omega⟩
        have h2 : b.toNat - (a.toNat + 1) = n := by omega
        simp [hb, hg.ne', hg.le, hn, h2, Nat.succ_le_of_lt hg]

theorem load_wf (image : List Byte) {s : State} (h : s.mem.wf) : (s.load image).mem.wf := writeImage_wf image h 0

/-- A load changes memory and nothing else (R171). -/
theorem load_eq (image : List Byte) (s : State) : s.load image = { s with mem := (s.load image).mem } :=
  writeImage_eq image s 0

/-- A load places the image at addresses 0 upward and leaves every other byte (R171). -/
theorem load_readMem (image : List Byte) (s : State) (b : Byte) (h : image.length ≤ 256) :
    (s.load image).readMem b = (image[b.toNat]?).getD (s.readMem b) := by
  simpa [load] using writeImage_readMem image s 0 b (by simpa using h)

section
variable (image : List Byte) (s : State)

@[simp] theorem load_regs : (s.load image).regs = s.regs := by rw [load_eq]
@[simp] theorem load_pc : (s.load image).pc = s.pc := by rw [load_eq]
@[simp] theorem load_sp : (s.load image).sp = s.sp := by rw [load_eq]
@[simp] theorem load_zero : (s.load image).zero = s.zero := by rw [load_eq]
@[simp] theorem load_portI : (s.load image).portI = s.portI := by rw [load_eq]
@[simp] theorem load_portQ : (s.load image).portQ = s.portQ := by rw [load_eq]
@[simp] theorem load_spare : (s.load image).spare = s.spare := by rw [load_eq]
@[simp] theorem load_fault : (s.load image).fault = s.fault := by rw [load_eq]

end

@[simp] theorem edit_fault (s : State) (e : HostEdit) : (s.edit e).fault = s.fault := by cases e <;> rfl

end Sys2Proof.Machine.State

namespace Sys2Proof.Machine

/-! ### Steps as mutations -/

/-- A step as a mutation gives the step's next state, sets FAULT, or changes nothing. -/
theorem cycleUnder_cases (cfg : Config) (s : State) :
    stepUnder cfg s = .next (cycleUnder cfg s) ∨ cycleUnder cfg s = s.latchFault ∨ cycleUnder cfg s = s := by
  unfold cycleUnder
  cases h : stepUnder cfg s with
  | next t => exact .inl rfl
  | fault f => cases f <;> simp
  | refused r => simp

theorem cycleUnder_of_next {cfg : Config} {s t : State} (h : stepUnder cfg s = .next t) : cycleUnder cfg s = t := by
  simp [cycleUnder, h]

theorem cycleUnder_of_fault {s : State} (cfg : Config) (h : s.fault = true) : cycleUnder cfg s = s := by
  simp [cycleUnder, stepUnder_of_fault cfg h]

/-- No step writes port I (R18). -/
@[simp] theorem cycleUnder_portI (cfg : Config) (s : State) : (cycleUnder cfg s).portI = s.portI := by
  rcases cycleUnder_cases cfg s with h | h | h
  · obtain ⟨_, ⟨i, _, e⟩ | ⟨_, _, _, e⟩⟩ := stepUnder_cases h <;> rw [e] <;> simp
  all_goals simp [h]

/-- No step writes SPARE (R20). -/
@[simp] theorem cycleUnder_spare (cfg : Config) (s : State) : (cycleUnder cfg s).spare = s.spare := by
  rcases cycleUnder_cases cfg s with h | h | h
  · obtain ⟨_, ⟨i, _, e⟩ | ⟨_, _, _, e⟩⟩ := stepUnder_cases h <;> rw [e] <;> simp
  all_goals simp [h]

/-! ### Events and sessions -/

/-- All an event can do: a step of a launched machine, a reset, a load of a well-formed image into a machine that was just
reset, both at once, and port I or an edit on whatever state there is. -/
theorem Event.apply_cases {cfg : Config} {e : Event} {p q : Platform} (h : e.apply cfg p = some q) :
    (∃ s, e = .step ∧ p = .launched s ∧ q = .launched (cycleUnder cfg s)) ∨
    (e = .reset ∧ q = .fresh State.reset) ∨
    (∃ image s, e = .load image ∧ imageWf image ∧ p = .fresh s ∧ q = .launched (s.load image)) ∨
    (∃ image, e = .launch image ∧ imageWf image ∧ q = .launched (Sys2Proof.Machine.launch image)) ∨
    (∃ v, e = .setPortI v ∧ p.onState (fun s => s.setPortI v) = some q) ∨
    (∃ d, e = .edit d ∧ cfg.hostEdits = true ∧ p.onState (fun s => s.edit d) = some q) := by
  unfold Event.apply at h
  split at h
  next ha =>
    cases e with
    | step => cases p <;> simp_all [Platform.step]
    | reset => simp_all
    | load image => cases p <;> simp_all [Platform.load, Event.allowed, imageWf]
    | launch image => simp_all [Event.allowed, imageWf]
    | setPortI v => simp_all
    | edit d => simp_all [Event.allowed]
  next => cases h

/-- A session's first event, then the rest. -/
theorem session_cons {cfg : Config} {e : Event} {es : List Event} {p q : Platform} :
    session cfg (e :: es) p = some q ↔ ∃ r, e.apply cfg p = some r ∧ session cfg es r = some q :=
  Option.bind_eq_some_iff

/-- A session in two halves. -/
theorem session_append (cfg : Config) (es fs : List Event) (p : Platform) :
    session cfg (es ++ fs) p = (session cfg es p).bind (session cfg fs) := by
  induction es generalizing p with
  | nil => rfl
  | cons e es ih =>
    simp only [List.cons_append, session, Option.bind_assoc]
    exact congrArg _ (funext ih)

/-- A property of the machine that every event keeps, every session keeps. -/
theorem session_keeps {cfg : Config} {P : Platform → Prop} (hstep : ∀ e p q, P p → Event.apply cfg e p = some q → P q)
    {es : List Event} {p q : Platform} (hp : P p) (h : session cfg es p = some q) : P q := by
  induction es generalizing p with
  | nil => cases h; exact hp
  | cons e es ih =>
    obtain ⟨r, hr, h⟩ := session_cons.1 h
    exact ih (hstep e p r hp hr) h

/-- What an action on the state leaves of it. -/
theorem Platform.onState_eq_some {f : State → State} {p q : Platform} :
    p.onState f = some q ↔
      (∃ s, p = .fresh s ∧ q = .fresh (f s)) ∨ (∃ s, p = .launched s ∧ q = .launched (f s)) := by
  cases p <;> simp [Platform.onState, eq_comm]

/-- The empty image changes nothing: the run of `core` from reset is the run of the empty image (R171, R173). -/
theorem launch_nil : launch [] = State.reset := rfl

/-- A launch is a reset and a load (R170, R171). -/
theorem session_reset_load (cfg : Config) (image : List Byte) (p : Platform) :
    session cfg [.reset, .load image] p = session cfg [.launch image] p := by
  by_cases h : imageWf image
  all_goals simp [session, Event.apply, Event.allowed, h, Platform.load, launch]

end Sys2Proof.Machine
end

