-- ==== Sys2Proof/Laws/Run.lean ====
section
/-! SUPPORT. Runs: how `core.run` unfolds, and the one induction over runs: what every step keeps, every reached state
has. -/

namespace Sys2Proof.Machine

theorem run_zero (s : State) : Sys2Proof.core.run 0 s = .next s := rfl

/-- A run whose first step gives `t` goes on from `t`. -/
theorem run_succ {s t : State} (h : step s = .next t) (n : Nat) :
    Sys2Proof.core.run (n + 1) s = Sys2Proof.core.run n t := by
  have e := Host.Core.run.eq_2 Sys2Proof.core s n
  have h' : Sys2Proof.core.step s = .next t := h
  rw [h'] at e
  exact e

/-- A property that every step keeps holds of every state reached from one that has it. -/
theorem Reaches.keeps {cfg : Config} {P : State → Prop} (hstep : ∀ s t, P s → stepUnder cfg s = .next t → P t)
    {s t : State} (h : Reaches cfg s t) (hs : P s) : P t := by
  induction h with
  | refl => exact hs
  | tail t u _ hu ih => exact hstep t u ih hu

/-- What steps reach from a state of a run is a state of a run. -/
theorem Reaches.runState {cfg : Config} {s t : State} (h : Reaches cfg s t) (hs : RunState cfg s) : RunState cfg t :=
  h.keeps (P := RunState cfg) (fun u v ⟨es, hu⟩ hv => ⟨es ++ [.step], by
    rw [session_append, hu]
    simp [session, Event.apply, Event.allowed, Platform.step, cycleUnder_of_next hv]⟩) hs

/-- The launch state of a closed run is a state of a run (R173, R180). -/
theorem runState_closedLaunch (cfg : Config) {image : List Byte} (h : imageWf image) (v : Byte) :
    RunState cfg (closedLaunch image v) :=
  ⟨[.reset, .setPortI v, .load image], by
    simp [session, Event.apply, Event.allowed, h, Platform.load, Platform.onState, closedLaunch]⟩

/-- Whoever runs `n` steps without a fault has reached the state it ends in. -/
theorem Reaches.of_run {n : Nat} {s t : State} (h : Sys2Proof.core.run n s = .next t) : Reaches machineConfig s t := by
  have go : ∀ (n : Nat) (r u : State), Reaches machineConfig s u → Sys2Proof.core.run n u = .next r → Reaches machineConfig s r := by
    intro n
    induction n with
    | zero => intro r u hu e; cases e; exact hu
    | succ n ih =>
      intro r u hu e
      cases hs : step u with
      | next v => rw [run_succ hs] at e; exact ih r v (.tail s u v hu (by rw [stepUnder_machineConfig, hs])) e
      | fault f =>
        have e' := Host.Core.run.eq_2 Sys2Proof.core u n
        have hs' : Sys2Proof.core.step u = .fault f := hs
        rw [hs', e] at e'
        cases e'
      | refused f =>
        have e' := Host.Core.run.eq_2 Sys2Proof.core u n
        have hs' : Sys2Proof.core.step u = .refused f := hs
        rw [hs', e] at e'
        cases e'
  exact go n t s (.refl s) h

/-- A safe closed run ends in a state of a run. -/
theorem SafeFor.runState {n : Nat} {image : List Byte} {v : Byte} (h : SafeFor n image v) :
    ∃ t, Sys2Proof.core.run n (closedLaunch image v) = .next t ∧ RunState machineConfig t := by
  obtain ⟨hw, t, ht⟩ := h
  exact ⟨t, ht, (Reaches.of_run ht).runState (runState_closedLaunch machineConfig hw v)⟩

end Sys2Proof.Machine
end

