-- ==== Sys2Proof/Tests/Slice0.lean ====
section
/-! SUPPORT. The model's own tests: the smoke test of the well-formedness checks, every constructor decoded from a word
written out from the spec's encoding, single steps with the values of `95_test_vectors.md`, and for each statement with
hypotheses a state and operands that meet them. -/

namespace Sys2Proof.Tests

open Sys2Proof.Machine Sys2Proof.Claims

/-! ## Helpers -/

/-- `s` with PC at `pc` and two bytes there. -/
def withBytes (s : State) (pc b0 b1 : Byte) : State := (s.setPc pc).placeInstr (b0, b1)

/-- The reset state with two bytes at PC 0x10, as the vectors of `95_test_vectors.md` section 2 start. -/
def start (b0 b1 : Byte) : State := withBytes State.reset 0x10 b0 b1

/-- What one step gives, seen through a function. -/
def after {α : Type} (f : State → α) (s : State) : Option α := (nextState (step s)).map f

/-- The non-default configurations of rule R5. -/
def nopConfig : Config := { machineConfig with illegalPolicy := .nop }
def correctedConfig : Config := { machineConfig with shiftInverted := false }

/-- Another map of unique patterns: the default numbers plus 15, so `shr` is 31 and 0 is unmapped. -/
def otherOpMap : OpMap := fun k => defaultOpMap k + 15
def otherConfig : Config := { machineConfig with opMap := otherOpMap }

/-! ## Well-formedness: each check refuses an ill-formed term -/

theorem test_wf_accepts : (RawInstr.mk .movi [.reg 7, .imm 255]).wf = true := by decide
theorem test_wf_refuses_missing_operand : (RawInstr.mk .add [.reg 1]).arityOk = false := by decide
theorem test_wf_refuses_surplus_operand : (RawInstr.mk .ret [.reg 1]).wf = false := by decide
theorem test_wf_refuses_wrong_kind : (RawInstr.mk .outQ [.portI, .reg 1]).kindsOk = false := by decide
theorem test_wf_refuses_immediate_for_register : (RawInstr.mk .mov [.reg 1, .imm 2]).wf = false := by decide
theorem test_wf_refuses_register_8 : (RawInstr.mk .inc [.reg 8]).rangesOk = false := by decide
theorem test_wf_refuses_immediate_256 : (RawInstr.mk .movi [.reg 0, .imm 256]).wf = false := by decide
theorem test_wf_refuses_displacement_256 : (RawInstr.mk .jp [.disp 256]).wf = false := by decide
theorem test_wf_refuses_shared_opcode : ¬ OpMap.wf (fun _ => 3) := by decide
theorem test_wf_refuses_odd_image : ¬ imageWf [0x30] := by decide
theorem test_wf_refuses_long_image : ¬ imageWf (List.replicate 258 0) :=
  fun h => absurd (List.length_replicate (n := 258) (a := (0 : Byte)) ▸ h.2) (by decide)

/-! ## Decoding: words written out from R56 and `95_test_vectors.md` section 2.1 -/

theorem test_decode_movi : decode 0b00000111 0b11111111 = .instr (.movi 7 0xFF) := by decide
theorem test_decode_mov : decode 0b00001001 0b00000010 = .instr (.mov 1 2) := by decide
theorem test_decode_mov_ignores_bits : decode 0b00001001 0b11111010 = .instr (.mov 1 2) := by decide
theorem test_decode_add : decode 0b00010101 0b00000110 = .instr (.add 5 6) := by decide
theorem test_decode_sub : decode 0b00011010 0b00000011 = .instr (.sub 2 3) := by decide
theorem test_decode_and : decode 0b00100100 0b00000101 = .instr (.and 4 5) := by decide
theorem test_decode_eor : decode 0b00101110 0b00000111 = .instr (.eor 6 7) := by decide
theorem test_decode_inc : decode 0b00110111 0b11001001 = .instr (.inc 7) := by decide
theorem test_decode_dec : decode 0b00111000 0b00000000 = .instr (.dec 0) := by decide
theorem test_decode_in : decode 0b01000010 0b00000000 = .instr (.inI 2) := by decide
theorem test_decode_out : decode 0b01001111 0b00000001 = .instr (.outQ 1) := by decide
theorem test_decode_jp : decode 0b01010101 0b11111110 = .instr (.jp 0xFE) := by decide
theorem test_decode_jz : decode 0b01011000 0b00000010 = .instr (.jz 0x02) := by decide
theorem test_decode_jnz : decode 0b01100000 0b11111010 = .instr (.jnz 0xFA) := by decide
theorem test_decode_rcall : decode 0b01101000 0b00000100 = .instr (.rcall 0x04) := by decide
theorem test_decode_ret : decode 0b01110111 0b10101011 = .instr .ret := by decide
theorem test_decode_shl : decode 0b01111001 0b00000000 = .instr (.shl 1) := by decide
theorem test_decode_shr : decode 0b10000001 0b00000000 = .instr (.shr 1) := by decide
theorem test_decode_88_unmapped : decode 0x88 0x00 = .unmapped 17 := by decide
theorem test_decode_FF_unmapped : decode 0xFF 0xFF = .unmapped 31 := by decide

/-- The canonical bytes of R60. -/
theorem test_encode_canonical :
    encode (.movi 3 0x2A) = (0x03, 0x2A) ∧ encode (.mov 1 2) = (0x09, 0x02) ∧ encode (.add 0 1) = (0x10, 0x01) ∧
    encode (.inc 7) = (0x37, 0x00) ∧ encode (.inI 2) = (0x42, 0x00) ∧ encode (.outQ 1) = (0x48, 0x01) ∧
    encode (.jp 0xFE) = (0x50, 0xFE) ∧ encode .ret = (0x70, 0x00) ∧ encode (.shl 1) = (0x79, 0x00) ∧
    encode (.shr 1) = (0x81, 0x00) := by decide

/-- The image of program P2 of `95_test_vectors.md`. -/
theorem test_image_of_program :
    imageOf defaultOpMap [.inI 0, .rcall 4, .outQ 0, .jp 0xFE, .add 0 0, .ret] =
      [0x40, 0x00, 0x68, 0x04, 0x48, 0x00, 0x50, 0xFE, 0x10, 0x00, 0x70, 0x00] := by decide

theorem test_term_stands_for_instruction :
    (RawInstr.mk .outQ [.portQ, .reg 1]).toInstr = some (.outQ 1) ∧ (RawInstr.mk .inc [.reg 8]).toInstr = none := by
  decide

theorem test_table_word : decodeTableWord 16 0x1A03 = some (.sub 2 3) := by decide
theorem test_table_word_unmapped : decodeTableWord 16 0x8800 = none := by decide
theorem test_fetch_word : after (·.readReg 3) (State.reset.withFetchWord 16 0x032A) = some 0x2A := by decide

/-- E2: the displacements of the relocation examples. -/
theorem test_displacement : displacementTo 0x08 0x04 = 0xFA ∧ displacementTo 0x02 0x08 = 0x04 := by decide

/-- E1: the disassembler shows the absolute target. -/
theorem test_disassemble_target :
    (withBytes State.reset 0x0C 0x50 0xFE).disassemble defaultOpMap 0x0C = some (.jp, [.target 0x0C]) := by decide

/-! ## Single steps: the rows of `95_test_vectors.md` section 2 -/

theorem test_movi_keeps_zero :
    after (fun t => (t.readReg 7, t.zero, t.pc)) ((start 0x07 0xFF).setZero true) = some (0xFF, true, 0x12) := by decide
theorem test_movi_zero_does_not_set_flag :
    after (fun t => (t.readReg 0, t.zero)) ((start 0x00 0x00).writeReg 0 0x55) = some (0x00, false) := by decide
theorem test_mov_ignores_high_bits :
    after (fun t => (t.readReg 1, t.readReg 2)) ((start 0x09 0xFA).writeReg 2 0x7F) = some (0x7F, 0x7F) := by decide
theorem test_add_loses_carry :
    after (fun t => (t.readReg 0, t.zero)) (((start 0x10 0x01).writeReg 0 0x80).writeReg 1 0x80) =
      some (0x00, true) := by decide
theorem test_add_same_register_doubles :
    after (fun t => (t.readReg 2, t.zero)) (((start 0x12 0x02).writeReg 2 0x81).setZero true) =
      some (0x02, false) := by decide
theorem test_sub_loses_borrow :
    after (fun t => (t.readReg 2, t.readReg 3, t.zero))
      ((((start 0x1A 0x03).writeReg 2 0x05).writeReg 3 0x07).setZero true) = some (0xFE, 0x07, false) := by decide
theorem test_sub_same_register_is_zero :
    after (fun t => (t.readReg 3, t.zero)) ((start 0x1B 0x03).writeReg 3 0x77) = some (0x00, true) := by decide
theorem test_and_disjoint_is_zero :
    after (fun t => (t.readReg 0, t.zero)) (((start 0x20 0x01).writeReg 0 0xAA).writeReg 1 0x55) =
      some (0x00, true) := by decide
theorem test_and_bits :
    after (fun t => (t.readReg 4, t.zero)) ((((start 0x24 0x05).writeReg 4 0xF0).writeReg 5 0x3C).setZero true) =
      some (0x30, false) := by decide
theorem test_eor_complements :
    after (fun t => (t.readReg 6, t.zero)) ((((start 0x2E 0x07).writeReg 6 0xAA).writeReg 7 0xFF).setZero true) =
      some (0x55, false) := by decide
theorem test_eor_same_register_clears :
    after (fun t => (t.readReg 1, t.zero)) ((start 0x29 0x01).writeReg 1 0xFF) = some (0x00, true) := by decide
theorem test_inc_wraps :
    after (fun t => (t.readReg 0, t.zero)) ((start 0x30 0x00).writeReg 0 0xFF) = some (0x00, true) := by decide
theorem test_inc_past_7F :
    after (fun t => (t.readReg 0, t.zero)) (((start 0x30 0x00).writeReg 0 0x7F).setZero true) =
      some (0x80, false) := by decide
theorem test_dec_wraps :
    after (fun t => (t.readReg 0, t.zero)) ((start 0x38 0x00).setZero true) = some (0xFF, false) := by decide
theorem test_dec_to_zero :
    after (fun t => (t.readReg 0, t.zero)) ((start 0x38 0x00).writeReg 0 0x01) = some (0x00, true) := by decide
theorem test_in_reads_port :
    after (fun t => (t.readReg 0, t.zero, t.portI)) (((start 0x40 0xFF).setPortI 0x5A).setZero true) =
      some (0x5A, false, 0x5A) := by decide
theorem test_in_zero_sets_flag :
    after (fun t => (t.readReg 0, t.zero)) ((start 0x40 0x00).writeReg 0 0x33) = some (0x00, true) := by decide
theorem test_out_ignores_low_bits :
    after (fun t => (t.portQ, t.readReg 7)) ((start 0x4F 0x07).writeReg 7 0x12) = some (0x12, 0x12) := by decide
theorem test_out_zero_does_not_set_flag :
    after (fun t => (t.portQ, t.zero)) ((start 0x48 0x00).setPortQ 0x9C) = some (0x00, false) := by decide
theorem test_jp_backward : after (·.pc) (start 0x50 0x80) = some 0x92 := by decide
theorem test_jp_odd_target : after (·.pc) (start 0x50 0x01) = some 0x13 := by decide
theorem test_jz_taken : after (·.pc) ((withBytes State.reset 0x02 0x58 0x02).setZero true) = some 0x06 := by decide
theorem test_jz_not_taken : after (·.pc) (withBytes State.reset 0x02 0x58 0x02) = some 0x04 := by decide
theorem test_jnz_taken : after (·.pc) (withBytes State.reset 0x06 0x60 0xFA) = some 0x02 := by decide
theorem test_jnz_not_taken :
    after (·.pc) ((withBytes State.reset 0x06 0x60 0xFA).setZero true) = some 0x08 := by decide
theorem test_rcall_return_address_wraps :
    after (fun t => (t.sp, t.readMem 0xFF, t.pc)) (withBytes State.reset 0xFE 0x68 0x10) =
      some (0xFF, 0x00, 0x10) := by decide
theorem test_rcall_overwrites_itself :
    after (fun t => (t.sp, t.readMem 0x20, t.readMem 0x21, t.pc)) ((withBytes State.reset 0x20 0x68 0x04).setSp 0x21) =
      some (0x20, 0x22, 0x04, 0x26) := by decide
theorem test_ret_keeps_popped_byte :
    after (fun t => (t.pc, t.sp, t.readMem 0xFF))
      (((withBytes State.reset 0x12 0x70 0x00).setSp 0xFF).writeMem 0xFF 0x06) = some (0x06, 0x00, 0x06) := by decide
theorem test_ret_after_reset_reads_address_0 :
    after (fun t => (t.pc, t.sp)) (withBytes State.reset 0x00 0x70 0x00) = some (0x70, 0x01) := by decide
theorem test_shl_shifts_right :
    after (fun t => (t.readReg 1, t.zero)) (((start 0x79 0x00).writeReg 1 0x80).setZero true) =
      some (0x40, false) := by decide
theorem test_shl_corrected_shifts_left :
    (nextState (stepUnder correctedConfig ((start 0x79 0x00).writeReg 1 0x80))).map
      (fun t => (t.readReg 1, t.zero)) = some (0x00, true) := by decide
theorem test_shr_shifts_left :
    after (fun t => (t.readReg 1, t.zero)) (((start 0x81 0x00).writeReg 1 0x96).setZero true) =
      some (0x2C, false) := by decide
theorem test_shr_corrected_shifts_right :
    (nextState (stepUnder correctedConfig ((start 0x81 0x00).writeReg 1 0x01))).map
      (fun t => (t.readReg 1, t.zero)) = some (0x00, true) := by decide

/-- An instruction at address 255 has its operand byte at address 0. -/
theorem test_fetch_wraps :
    after (fun t => (t.readReg 0, t.pc)) (withBytes State.reset 0xFF 0x00 0x50) = some (0x50, 0x01) := by decide

theorem test_unmapped_faults : faultOf (step (start 0x88 0x00)) = some (.illegalOpcode 0x10 0x88) := by decide
theorem test_unmapped_latches :
    cycle (start 0xFF 0xFF) = { start 0xFF 0xFF with fault := true } := by decide
theorem test_faulted_does_nothing : cycle (start 0x00 0x05).latchFault = (start 0x00 0x05).latchFault := by decide
theorem test_nop_policy :
    nextState (stepUnder nopConfig (start 0x88 0x00)) = some ((start 0x88 0x00).setPc 0x12) := by decide
theorem test_other_map :
    (nextState (stepUnder otherConfig (start 0x7B 0x2A))).map (·.readReg 3) = some 0x2A := by decide

theorem test_write_unlisted_value_removes_entry : ((State.reset.writeMem 5 7).writeMem 5 0).mem = [] := by decide
theorem test_self_jump_is_finished : (start 0x50 0xFE).finished = true := by decide
/-- R171: the load keeps the port the host set after the reset, and the first step reads it. -/
theorem test_load_keeps_port :
    ((session machineConfig [.reset, .setPortI 0x5A, .load [0x40, 0x00], .step] .neverReset).bind
      Platform.state?).map (fun t => (t.readReg 0, t.pc)) = some (0x5A, 0x02) := by decide
/-- R173: stepping an engine that was never reset has no meaning. -/
theorem test_never_reset_is_not_stepped : session machineConfig [.step] .neverReset = none := by decide
theorem test_dump_marks_below_sp : (State.reset.setPc 4).marker 0xFF = .belowSp := by decide

theorem test_register_dump_order :
    State.reset.registerDump.map (·.1) =
      ["PC", "SP", "S0", "S1", "S2", "S3", "S4", "S5", "S6", "S7", "I", "Q", "SPARE"] := by decide
theorem test_image_dump_line :
    (start 0x37 0xC9).imageDump[8]? = some ⟨.atPc, 0x10, 0x37, 0xC9⟩ := by decide

/-! ## Witnesses: for each statement with hypotheses, a state and operands that meet them -/

theorem witness_DecodeOfEncodeIsTheInstruction :
    defaultOpMap.wf ∧ (Instr.movi 7 0xFF).wf = true ∧ otherOpMap.wf := by decide
theorem witness_EveryWordOfAFormatDecodes : OpMap.wf defaultOpMap ∧ otherOpMap.wf := by decide
theorem witness_WordsDecodeExactlyWhenMapped_mapped :
    OpMap.wf defaultOpMap ∧ defaultOpMap .shr = (0x87 : Byte).extractLsb' 3 5 := by decide
theorem witness_WordsDecodeExactlyWhenMapped_unmapped :
    OpMap.wf defaultOpMap ∧ ∀ k : Mnemonic, defaultOpMap k ≠ (0x88 : Byte).extractLsb' 3 5 := by
  refine ⟨by decide, fun k => ?_⟩
  cases k <;> decide
theorem witness_FifteenOpcodesAreUnmapped : otherOpMap.wf := by decide
theorem witness_StepRunsTheDecodedInstruction_faulted : (start 0x00 0x00).latchFault.fault = true := by decide
theorem witness_StepRunsTheDecodedInstruction_mapped :
    (start 0x87 0x00).fault = false ∧
    decode ((start 0x87 0x00).readMem (start 0x87 0x00).pc) ((start 0x87 0x00).readMem ((start 0x87 0x00).pc + 1)) =
      .instr (.shr 7) := by decide
theorem witness_StepRunsTheDecodedInstruction_unmapped :
    (start 0x88 0x00).fault = false ∧
    decode ((start 0x88 0x00).readMem (start 0x88 0x00).pc) ((start 0x88 0x00).readMem ((start 0x88 0x00).pc + 1)) =
      .unmapped 17 := by decide
theorem witness_StepRunsTheDecodedInstruction_otherConfig :
    (start 0x7B 0x2A).fault = false ∧
    decodeUnder otherConfig.opMap ((start 0x7B 0x2A).readMem (start 0x7B 0x2A).pc)
      ((start 0x7B 0x2A).readMem ((start 0x7B 0x2A).pc + 1)) = .instr (.movi 3 0x2A) ∧
    otherConfig.illegalPolicy = .fault ∧
    decodeUnder otherConfig.opMap ((start 0x00 0x2A).readMem (start 0x00 0x2A).pc)
      ((start 0x00 0x2A).readMem ((start 0x00 0x2A).pc + 1)) = .unmapped 0 := by decide
theorem witness_StepHasExactlyTwoOutcomes : State.reset.fault = false := by decide
theorem witness_NothingElseFaults : ∀ t, step (start 0x88 0x00) ≠ .next t := by
  have h : nextState (step (start 0x88 0x00)) = none := by decide
  intro t e
  rw [e] at h
  cases h
theorem witness_NothingElseFaults_anyConfig : ∀ t, stepUnder otherConfig (start 0x00 0x00) ≠ .next t := by
  have h : nextState (stepUnder otherConfig (start 0x00 0x00)) = none := by decide
  intro t e
  rw [e] at h
  cases h
theorem witness_EachInstructionLeavesPcAsTabled :
    (start 0x68 0xFE).fault = false ∧
    decodeUnder machineConfig.opMap ((start 0x68 0xFE).readMem (start 0x68 0xFE).pc)
      ((start 0x68 0xFE).readMem ((start 0x68 0xFE).pc + 1)) = .instr (.rcall 0xFE) := by decide

theorem witness_MoviLoadsTheImmediate :
    machineConfig.opMap.wf ∧ Fetches (start 0x07 0xFF) (machineConfig.opMap .movi ++ (7 : RegNum)) 0xFF := by decide
theorem witness_MovCopiesTheSource :
    otherConfig.opMap.wf ∧
      Fetches (start 0x81 0xFA) (otherConfig.opMap .mov ++ (1 : RegNum)) (0b11111#5 ++ (2 : RegNum)) := by decide
theorem witness_AddAddsModulo256 :
    machineConfig.opMap.wf ∧
      Fetches (start 0x15 0xFE) (machineConfig.opMap .add ++ (5 : RegNum)) (0b11111#5 ++ (6 : RegNum)) := by decide
theorem witness_SubSubtractsModulo256 :
    machineConfig.opMap.wf ∧
      Fetches (start 0x1A 0x03) (machineConfig.opMap .sub ++ (2 : RegNum)) (0#5 ++ (3 : RegNum)) := by decide
theorem witness_AndIsBitwise :
    machineConfig.opMap.wf ∧
      Fetches (start 0x24 0x05) (machineConfig.opMap .and ++ (4 : RegNum)) (0#5 ++ (5 : RegNum)) := by decide
theorem witness_EorIsBitwise :
    machineConfig.opMap.wf ∧
      Fetches (start 0x2E 0x07) (machineConfig.opMap .eor ++ (6 : RegNum)) (0#5 ++ (7 : RegNum)) := by decide
theorem witness_IncAddsOneModulo256 :
    machineConfig.opMap.wf ∧ Fetches (start 0x37 0xC9) (machineConfig.opMap .inc ++ (7 : RegNum)) 0xC9 := by decide
theorem witness_DecSubtractsOneModulo256 :
    machineConfig.opMap.wf ∧ Fetches (start 0x38 0x00) (machineConfig.opMap .dec ++ (0 : RegNum)) 0x00 := by decide
theorem witness_InReadsPortI :
    machineConfig.opMap.wf ∧ Fetches (start 0x42 0x00) (machineConfig.opMap .inI ++ (2 : RegNum)) 0x00 := by decide
theorem witness_OutWritesPortQ :
    machineConfig.opMap.wf ∧
      Fetches (start 0x4F 0x01) (machineConfig.opMap .outQ ++ (7 : RegNum)) (0#5 ++ (1 : RegNum)) := by decide
theorem witness_JpAddsTheDisplacement :
    machineConfig.opMap.wf ∧ Fetches (start 0x55 0xFE) (machineConfig.opMap .jp ++ (5 : RegNum)) 0xFE := by decide
theorem witness_JzJumpsWhenZeroIsSet :
    machineConfig.opMap.wf ∧
      Fetches ((start 0x58 0x02).setZero true) (machineConfig.opMap .jz ++ (0 : RegNum)) 0x02 ∧
      ((start 0x58 0x02).setZero true).zero = true ∧
      Fetches (start 0x58 0x02) (machineConfig.opMap .jz ++ (0 : RegNum)) 0x02 ∧ (start 0x58 0x02).zero = false := by
  decide
theorem witness_JnzJumpsWhenZeroIsClear :
    machineConfig.opMap.wf ∧
      Fetches ((start 0x60 0xFA).setZero true) (machineConfig.opMap .jnz ++ (0 : RegNum)) 0xFA ∧
      ((start 0x60 0xFA).setZero true).zero = true ∧
      Fetches (start 0x60 0xFA) (machineConfig.opMap .jnz ++ (0 : RegNum)) 0xFA ∧ (start 0x60 0xFA).zero = false := by
  decide
theorem witness_RcallPushesTheReturnAddress :
    machineConfig.opMap.wf ∧
      Fetches ((withBytes State.reset 0x20 0x68 0x04).setSp 0x21) (machineConfig.opMap .rcall ++ (0 : RegNum)) 0x04 := by
  decide
theorem witness_RetPopsThePc :
    machineConfig.opMap.wf ∧ Fetches (start 0x77 0xAB) (machineConfig.opMap .ret ++ (7 : RegNum)) 0xAB := by decide
theorem witness_ShlShiftsRightWhenInverted :
    correctedConfig.opMap.wf ∧ Fetches (start 0x79 0x00) (correctedConfig.opMap .shl ++ (1 : RegNum)) 0x00 := by decide
theorem witness_ShrShiftsLeftWhenInverted :
    machineConfig.opMap.wf ∧ Fetches (start 0x87 0x00) (machineConfig.opMap .shr ++ (7 : RegNum)) 0x00 := by decide

theorem witness_ZeroFlagIsOfTheStoredByte : zeroDest (.shr 7) = some 7 ∧ zeroDest (.add 0 1) = some 0 := by decide
theorem witness_OnlyListedInstructionsUseZero_writer :
    zeroDest (.sub 2 3) = some 2 ∧ ∃ t, exec (.sub 2 3) State.reset = .next t := ⟨rfl, _, rfl⟩
theorem witness_OnlyListedInstructionsUseZero_nonWriter :
    zeroDest (.rcall 4) = none ∧ ∃ t, exec (.rcall 4) State.reset = .next t := ⟨rfl, _, rfl⟩
theorem witness_OnlyListedInstructionsUseZero_readers :
    (∃ t, exec (.jz 2) State.reset = .next t) ∧ ∃ t, exec (.jnz 2) State.reset = .next t := ⟨⟨_, rfl⟩, _, rfl⟩
theorem witness_OnlyListedInstructionsUseZero_nonReader :
    (∀ o, Instr.jp 1 ≠ .jz o) ∧ ∀ o, Instr.jp 1 ≠ .jnz o := by simp
theorem witness_InstructionsUseOnlyTheirRegisters :
    (∃ t, exec (.add 0 1) State.reset = .next t) ∧ (1 : RegNum) ∉ regWrites (.add 0 1) ∧
      (2 : RegNum) ∉ regReads (.add 0 1) ∧ (3 : RegNum) ∉ regReads (.movi 3 0) := ⟨⟨_, rfl⟩, by decide⟩
theorem witness_RelativeTransfersReachTheirTarget :
    Instr.jp ∈ takenTransfers State.reset.zero ∧ Instr.rcall ∈ takenTransfers State.reset.zero ∧
      Instr.jnz ∈ takenTransfers State.reset.zero ∧ Instr.jz ∈ takenTransfers (State.reset.setZero true).zero := by
  simp [takenTransfers, State.reset, State.setZero]
theorem witness_OnlyCallAndReturnUseSp :
    (∀ o, Instr.inc 0 ≠ .rcall o) ∧ Instr.inc 0 ≠ .ret ∧ ∃ t, exec (.inc 0) State.reset = .next t :=
  ⟨by simp, by simp, _, rfl⟩
theorem witness_TheStackIsTheOnlyData :
    (∀ o, Instr.outQ 0 ≠ .rcall o) ∧ Instr.outQ 0 ≠ .ret ∧ ∃ t, exec (.outQ 0) State.reset = .next t :=
  ⟨by simp, by simp, _, rfl⟩
/-- Another memory for the state at `ret`, the same at the three bytes read and different at address 0x40. -/
theorem witness_StepsTouchOnlyTheTabledBytes_ret :
    let s := start 0x70 0x00
    let m := s.mem.write 0x40 0x99
    s.fault = false ∧ m ≠ s.mem ∧ m.read s.pc = s.readMem s.pc ∧ m.read (s.pc + 1) = s.readMem (s.pc + 1) ∧
      s.fetchUnder machineConfig.opMap = .instr .ret ∧ m.read s.sp = s.readMem s.sp ∧
      (nextState (stepUnder machineConfig s)).isSome = true := by decide
theorem witness_StepsTouchOnlyTheTabledBytes_rcall :
    let s := start 0x68 0x04
    let m := s.mem.write 0x40 0x99
    s.fault = false ∧ m.read s.pc = s.readMem s.pc ∧ m.read (s.pc + 1) = s.readMem (s.pc + 1) ∧
      s.fetchUnder machineConfig.opMap = .instr (.rcall 0x04) ∧
      (nextState (stepUnder machineConfig s)).isSome = true := by decide
/-- For an unmapped opcode not even the operand byte is read. -/
theorem witness_StepsTouchOnlyTheTabledBytes_fault :
    let s := start 0x88 0x00
    let m := s.mem.write 0x11 0x99
    s.fault = false ∧ m.read s.pc = s.readMem s.pc ∧ m.read (s.pc + 1) ≠ s.readMem (s.pc + 1) ∧
      s.fetchUnder machineConfig.opMap = .unmapped 17 ∧
      faultOf (stepUnder machineConfig s) = some (.illegalOpcode 0x10 0x88) := by decide
theorem witness_PortsAndSpareHaveNoOtherUse :
    (∃ t, exec (.mov 0 1) State.reset = .next t) ∧ (∀ r, Instr.mov 0 1 ≠ .outQ r) ∧ ∀ d, Instr.mov 0 1 ≠ .inI d :=
  ⟨⟨_, rfl⟩, by simp, by simp⟩

theorem witness_IllegalOpcodeLatchesAndStops :
    (start 0xF8 0x12).fault = false ∧
    decode ((start 0xF8 0x12).readMem (start 0xF8 0x12).pc) ((start 0xF8 0x12).readMem ((start 0xF8 0x12).pc + 1)) =
      .unmapped 31 := by decide
theorem witness_OnlyResetClearsFault :
    (start 0x00 0x05).latchFault.fault = true ∧
    [Event.step, .setPortI 3, .step].all keepsRunning = true ∧
    (session machineConfig [.step, .setPortI 3, .step] (.launched (start 0x00 0x05).latchFault)).isSome = true := by decide
theorem witness_NopPolicySkipsUnmappedOpcodes :
    nopConfig.illegalPolicy = .nop ∧ (start 0x88 0x00).fault = false ∧
    decodeUnder nopConfig.opMap ((start 0x88 0x00).readMem (start 0x88 0x00).pc)
      ((start 0x88 0x00).readMem ((start 0x88 0x00).pc + 1)) = .unmapped 17 := by decide
theorem witness_FirstStepRunsAddressZero :
    imageWf (0x30 :: 0x00 :: []) ∧ decode 0x30 0x00 = .instr (.inc 0) := by decide
theorem witness_LaunchKeepsNothingOfBefore : imageWf [0x30, 0x00] ∧ ¬ imageWf [0x30] := by decide
/-- The longest image there is, 128 instructions, and one instruction more. -/
theorem witness_LaunchKeepsNothingOfBefore_boundary :
    imageWf (List.replicate 256 0x30) ∧ imageWf [] ∧ ¬ imageWf (List.replicate 258 0x30) := by
  unfold imageWf
  rw [List.length_replicate, List.length_replicate]
  decide
theorem witness_HostSetsOnlyPortI :
    (session machineConfig [.setPortI 5, .step] (.launched (start 0x40 0x00))).isSome = true ∧
      [Event.setPortI 5, .step].all keepsRunning = true ∧ Event.edit (.pc 3) ∈ [Event.step, .edit (.pc 3)] := by decide
theorem witness_ArithmeticIsTwosComplementToo :
    (-128 : Int) ≤ (0x80 : Byte).toInt + (0 : Byte).toInt ∧ (0x80 : Byte).toInt + (0 : Byte).toInt ≤ 127 ∧
      (-128 : Int) ≤ (0x7F : Byte).toInt - (0 : Byte).toInt ∧ (0x7F : Byte).toInt - (0 : Byte).toInt ≤ 127 := by decide
theorem witness_StepsKeepTheInvariant :
    (start 0x68 0x04).Inv ∧ ∃ t, stepUnder machineConfig (start 0x68 0x04) = .next t := ⟨⟨by decide, rfl⟩, _, rfl⟩
theorem witness_FinishedStatesAreTheFixedPoints :
    (start 0x50 0xFE).finished = true ∧ ((start 0x58 0xFE).setZero true).finished = true ∧
      (start 0x60 0xFE).finished = true ∧ (start 0x58 0xFE).finished = false := by decide
/-- Under the map of 15 more `jp` is opcode 25, byte 0xC8. -/
theorem witness_FinishedStatesAreTheFixedPoints_otherMap :
    otherOpMap.wf ∧ (start 0xC8 0xFE).finishedUnder otherConfig.opMap = true ∧ (start 0xC8 0xFE).finished = false ∧
      (Platform.launched (start 0xC8 0xFE)).finished otherConfig = true := by decide
/-- The call of E5 at address 0x02, and the `ret` it reaches, placed at 0x08. -/
theorem witness_ReturnComesBackFromCall :
    let s := (withBytes State.reset 0x02 0x68 0x04).writeMem 0x08 0x70
    s.fetch = .instr (.rcall 0x04) ∧
    ∃ t, step s = .next t ∧ t.fault = false ∧ t.fetch = .instr .ret ∧ t.pc = 0x08 :=
  ⟨by decide, _, rfl, by decide, by decide, by decide⟩
theorem witness_NextFetchSeesThePushedByte :
    (∃ t, exec (.rcall 0xEF) (State.reset.setPc 0x10) = .next t ∧ t.pc = State.reset.sp - 1) ∧
    ∃ t, exec (.rcall 0xEE) (State.reset.setPc 0x10) = .next t ∧ t.pc + 1 = State.reset.sp - 1 :=
  ⟨⟨_, rfl, by decide⟩, _, rfl, by decide⟩
theorem witness_DisassemblyShowsTheInstruction :
    OpMap.wf defaultOpMap ∧ (start 0x50 0xFE).readMem 0x10 = (encodeUnder defaultOpMap (.jp 0xFE)).1 ∧
      (start 0x50 0xFE).readMem (0x10 + 1) = (encodeUnder defaultOpMap (.jp 0xFE)).2 := by decide
theorem witness_RunsBeginWithResetAndLoad :
    (session machineConfig [.reset, .setPortI 5, .load [0x40, 0x00], .step] .neverReset).isSome = true ∧
      (session machineConfig [.launch [0x40, 0x00], .step] .neverReset).isSome = true ∧
      Event.step ≠ .reset ∧ ∀ image, Event.step ≠ .launch image := ⟨by decide, by decide, by decide, by simp⟩
theorem witness_LoadChangesMemoryAlone : imageWf [0x40, 0x00] ∧ ¬ imageWf [0x40] := by decide
theorem witness_EventsKeepMemoryCanonical :
    (start 0x68 0x04).mem.wf ∧
      (Event.apply machineConfig .step (.launched (start 0x68 0x04))).isSome = true ∧
      RunState machineConfig (launch [0x40, 0x00]) := ⟨by decide, by decide, [.launch [0x40, 0x00]], rfl⟩

end Sys2Proof.Tests
end

/-! SUPPORT. How the effects use the zero flag (rule R17 of `10_state.md`) and the stack pointer (R15). Each part says
once how `execNext` meets a write of the field, and the obligation is read off from that. -/

namespace Sys2Proof.Machine

open Sys2Proof.Claims (zeroDest)

/-- All that `exec` can answer is the next state of the effect. -/
theorem exec_eq_next_iff {i : Instr} {s t : State} :
    exec i s = .next t ↔ execNext machineConfig.shiftInverted i s = t := by
  rw [exec_eq, Host.Outcome.next.injEq]

/-! ### The zero flag -/

/-- Z is left true exactly when the register holds 0, which is the byte `writeResult` stored there (R116). -/
theorem State.writeResult_zero_eq_readReg (s : State) (d : RegNum) (b : Byte) :
    (s.writeResult d b).zero = decide ((s.writeResult d b).readReg d = 0) := by
  rw [State.writeResult_zero, State.writeResult_readReg_same, Bool.beq_eq_decide_eq]

/-- An instruction that recomputes Z leaves it true exactly when its destination register holds 0. -/
theorem execNext_zero_of_zeroDest {i : Instr} {d : RegNum} (h : zeroDest i = some d) (v : Bool) (s : State) :
    (execNext v i s).zero = decide ((execNext v i s).readReg d = 0) := by
  cases i with
  | add | sub | and | eor | inc | dec | inI | shl | shr =>
    cases h; exact State.writeResult_zero_eq_readReg _ _ _
  | movi | mov | outQ | jp | jz | jnz | rcall | ret => cases h

/-- In an instruction that recomputes Z the old Z plays no part. -/
theorem execNext_setZero_of_zeroDest {i : Instr} {d : RegNum} (h : zeroDest i = some d) (v : Bool) (s : State)
    (z : Bool) : execNext v i (s.setZero z) = execNext v i s := by
  cases i with
  | add | sub | and | eor | inc | dec | inI | shl | shr => exact State.writeResult_setZero _ _ _ _
  | movi | mov | outQ | jp | jz | jnz | rcall | ret => cases h

/-- The other instructions never write Z. -/
theorem execNext_zero_of_zeroDest_none {i : Instr} (h : zeroDest i = none) (v : Bool) (s : State) :
    (execNext v i s).zero = s.zero := by
  cases i with
  | movi | mov | outQ | ret => rfl
  | jp | jz | jnz | rcall => exact State.jumpIf_zero _ _ _
  | add | sub | and | eor | inc | dec | inI | shl | shr => cases h

/-- An instruction that neither reads nor writes Z carries any other Z through. -/
theorem execNext_setZero_of_zeroDest_none {i : Instr} (h : zeroDest i = none) (hjz : ∀ o, i ≠ .jz o)
    (hjnz : ∀ o, i ≠ .jnz o) (v : Bool) (s : State) (z : Bool) :
    execNext v i (s.setZero z) = (execNext v i s).setZero z := by
  cases i with
  | jz o => exact absurd rfl (hjz o)
  | jnz o => exact absurd rfl (hjnz o)
  | movi | mov | outQ | jp | rcall | ret => rfl
  | add | sub | and | eor | inc | dec | inI | shl | shr => cases h

/-- But for `jz` and `jnz`, another Z before makes no difference after, but for Z itself. -/
theorem execNext_setZero {i : Instr} (hjz : ∀ o, i ≠ .jz o) (hjnz : ∀ o, i ≠ .jnz o) (v : Bool) (s : State) (z : Bool) :
    (execNext v i s).setZero (execNext v i (s.setZero z)).zero = execNext v i (s.setZero z) := by
  cases h : zeroDest i with
  | some d => rw [execNext_setZero_of_zeroDest h]; rfl
  | none => rw [execNext_setZero_of_zeroDest_none h hjz hjnz]; rfl

/-! ### The stack pointer -/

theorem State.jumpIf_setSp (s : State) (p : Byte) (c : Bool) (o : Byte) :
    (s.setSp p).jumpIf c o = (s.jumpIf c o).setSp p := by
  simp only [State.jumpIf_eq]; rfl

/-- But for `rcall` and `ret`, another SP before is that SP after, and makes no other difference. -/
theorem execNext_setSp {i : Instr} (hcall : ∀ o, i ≠ .rcall o) (hret : i ≠ .ret) (v : Bool) (s : State) (p : Byte) :
    execNext v i (s.setSp p) = (execNext v i s).setSp p := by
  cases i with
  | rcall o => exact absurd rfl (hcall o)
  | ret => exact absurd rfl hret
  | jp | jz | jnz => exact State.jumpIf_setSp _ _ _ _
  | movi | mov | add | sub | and | eor | inc | dec | inI | outQ | shl | shr => rfl

/-- But for `rcall` and `ret`, SP is kept: the case of `execNext_setSp` where the other SP is the old one. -/
theorem execNext_sp {i : Instr} (hcall : ∀ o, i ≠ .rcall o) (hret : i ≠ .ret) (v : Bool) (s : State) :
    (execNext v i s).sp = s.sp :=
  calc (execNext v i s).sp
    _ = ((execNext v i s).setSp s.sp).sp := congrArg State.sp (execNext_setSp hcall hret v s s.sp)
    _ = s.sp := State.setSp_sp _ _

/-- `rcall` stores the advanced PC at the SP it leaves, one below the old one (R133). -/
theorem exec_rcall_stack (o : Byte) (s : State) :
    ∃ t, exec (.rcall o) s = .next t ∧ t.sp = s.sp - 1 ∧ t.readMem t.sp = s.pc := by
  refine ⟨_, exec_eq _ _, ?_, ?_⟩ <;> simp [execNext, State.push_readMem]

/-- `ret` takes PC from the byte at SP and leaves SP one higher (R134). -/
theorem exec_ret_stack (s : State) :
    ∃ t, exec .ret s = .next t ∧ t.pc = s.readMem s.sp ∧ t.sp = s.sp + 1 :=
  ⟨_, exec_eq _ _, rfl, rfl⟩

end Sys2Proof.Machine

namespace Sys2Proof.Claims

open Sys2Proof.Machine

/-- Settles O29: the writers of Z end in `writeResult`, the two readers in `jumpIf`. -/
theorem onlyListedInstructionsUseZero : Obligations.OnlyListedInstructionsUseZero := by
  refine ⟨?writers, ?nonWriters, ?jz, ?jnz, ?nonReaders⟩
  case writers =>
    intro i d s t hd ht
    obtain rfl := exec_eq_next_iff.1 ht
    exact execNext_zero_of_zeroDest hd _ s
  case nonWriters =>
    intro i s t hd ht
    obtain rfl := exec_eq_next_iff.1 ht
    exact execNext_zero_of_zeroDest_none hd _ s
  case jz =>
    intro o s t ht
    obtain rfl := exec_eq_next_iff.1 ht
    exact State.jumpIf_pc s s.zero o
  case jnz =>
    intro o s t ht
    obtain rfl := exec_eq_next_iff.1 ht
    exact (State.jumpIf_pc s (!s.zero) o).trans (by cases s.zero <;> rfl)
  case nonReaders =>
    intro i s z hjz hjnz
    exact ⟨_, _, exec_eq i s, exec_eq i (s.setZero z), execNext_setZero hjz hjnz _ s z⟩

/-- Settles O33: the effects of all but `rcall` and `ret` commute with a write of SP; the push from reset, whose SP is 0,
wraps to 255. -/
theorem onlyCallAndReturnUseSp : Obligations.OnlyCallAndReturnUseSp := by
  refine ⟨?others, exec_rcall_stack, exec_ret_stack, ?firstPush⟩
  case others =>
    intro i s t hcall hret ht
    obtain rfl := exec_eq_next_iff.1 ht
    exact ⟨execNext_sp hcall hret _ s, fun p => exec_eq_next_iff.2 (execNext_setSp hcall hret _ s p)⟩
  case firstPush =>
    intro o pc
    obtain ⟨t, ht, hsp, hread⟩ := exec_rcall_stack o { State.reset with pc := pc }
    have hsp : t.sp = 255 := hsp
    exact ⟨t, ht, hsp, hsp ▸ hread⟩

end Sys2Proof.Claims

/-! SUPPORT. The words of a format, its ignored bits free (rules R51, R53, R54 of `30_encoding.md`). -/

namespace Sys2Proof

/-- A word whose second byte names a source register in its low bits: the 5 bits above the register number play no part
in the fields. -/
theorem decodeUnder_append_src {m : OpMap} (h : m.wf) (k : Mnemonic) (d r : RegNum) (x : BitVec 5) :
    decodeUnder m (m k ++ d) (x ++ r) = .instr (instrOf k d r (x ++ r)) := by
  simpa using decodeUnder_append h k d (x ++ r)

end Sys2Proof

namespace Sys2Proof.Claims

/-- Settles O2: a word decodes to `instrOf` of its mnemonic and fields, and `instrOf` drops the fields that the format
does not name. The formats DS and QS take the second byte apart, the others take it whole. -/
theorem everyWordOfAFormatDecodes : Obligations.EveryWordOfAFormatDecodes := by
  refine ⟨rfl, fun m h d r y x b => ?_⟩
  have whole (k : Mnemonic) (low : RegNum) := decodeUnder_append h k low b
  have src (k : Mnemonic) (low : RegNum) := decodeUnder_append_src h k low r x
  exact ⟨whole .movi d, src .mov d, src .add d, src .sub d, src .and d, src .eor d, whole .inc d, whole .dec d,
    whole .shl d, whole .shr d, whole .inI d, src .outQ y, whole .jp y, whole .jz y, whole .jnz y, whole .rcall y,
    whole .ret y⟩

end Sys2Proof.Claims

/-! SUPPORT. The step of this machine by what it fetches (rules R80 and R82 of `40_step_cycle.md`), and the faulting step
as a mutation. -/

namespace Sys2Proof.Machine

theorem step_of_instr {s : State} {i : Instr} (h : s.fault = false) (hf : s.fetch = .instr i) :
    step s = .next (execNext machineConfig.shiftInverted i s.advancePc) :=
  (stepUnder_machineConfig s).symm.trans (stepUnder_of_instr h hf)

/-- The policy of this machine is to fault. -/
theorem step_of_unmapped {s : State} {opc : Opcode} (h : s.fault = false) (hf : s.fetch = .unmapped opc) :
    step s = .fault (.illegalOpcode s.pc (s.readMem s.pc)) :=
  (stepUnder_machineConfig s).symm.trans (stepUnder_of_unmapped h hf)

theorem cycle_of_next {s t : State} (h : step s = .next t) : cycle s = t :=
  cycleUnder_of_next ((stepUnder_machineConfig s).trans h)

theorem cycleUnder_of_illegalOpcode {cfg : Config} {s : State} {pc b : Byte}
    (h : stepUnder cfg s = .fault (.illegalOpcode pc b)) : cycleUnder cfg s = s.latchFault := by
  simp [cycleUnder, h]

theorem cycle_of_illegalOpcode {s : State} {pc b : Byte} (h : step s = .fault (.illegalOpcode pc b)) :
    cycle s = s.latchFault :=
  cycleUnder_of_illegalOpcode ((stepUnder_machineConfig s).trans h)

end Sys2Proof.Machine

namespace Sys2Proof.Claims

open Sys2Proof.Machine

/-- Settles O8: the two outcomes are the two answers of the decoder, an instruction, whose effect always gives a state, or
an unmapped opcode. -/
theorem stepHasExactlyTwoOutcomes : Obligations.StepHasExactlyTwoOutcomes := by
  intro s h
  cases hf : s.fetch with
  | instr i =>
    have hstep := step_of_instr h hf
    exact .inl ⟨_, hstep, cycle_of_next hstep⟩
  | unmapped opc =>
    have hstep := step_of_unmapped h hf
    exact .inr ⟨hstep, cycle_of_illegalOpcode hstep⟩

end Sys2Proof.Claims

/-! SUPPORT. The step on a word of a format (rules R54 and R80), and the effects on the advanced state as effects on the
state before the step (R12). -/

namespace Sys2Proof.Claims

open Sys2Proof.Machine

section
variable {cfg : Config} {s t : State}

/-- A fetched word that carries the opcode of `k` runs the instruction of `k` with the word's fields. -/
theorem stepUnder_of_fetches (hm : cfg.opMap.wf) {k : Mnemonic} {d : RegNum} {b : Byte}
    (h : Fetches s (cfg.opMap k ++ d) b) :
    stepUnder cfg s = .next (execNext cfg.shiftInverted (instrOf k d (srcField b) b) s.advancePc) := by
  obtain ⟨hfault, hbyte0, rfl⟩ := h
  have hfetch : s.fetchUnder cfg.opMap = decodeUnder cfg.opMap (s.readMem s.pc) (s.readMem (s.pc + 1)) := rfl
  rw [hbyte0, decodeUnder_append hm] at hfetch
  exact stepUnder_of_instr hfault hfetch

/-- The same where the second byte names a source register, whatever its ignored bits. -/
theorem stepUnder_of_fetches_src (hm : cfg.opMap.wf) {k : Mnemonic} {d r : RegNum} {x : BitVec 5}
    (h : Fetches s (cfg.opMap k ++ d) (x ++ r)) :
    stepUnder cfg s = .next (execNext cfg.shiftInverted (instrOf k d r (x ++ r)) s.advancePc) := by
  simpa only [srcField_append] using stepUnder_of_fetches hm h

theorem pcPast_of_pc_eq (h : t.pc = s.advancePc.pc) : PcPast s t :=
  (congrArg BitVec.toNat h).trans (BitVec.toNat_add s.pc 2)

/-! ### The advance of PC is outside every frame -/

theorem RestUnchanged.of_advancePc (h : RestUnchanged s.advancePc t) : RestUnchanged s t :=
  ⟨h.sp, h.portI, h.portQ, h.spare, h.fault, h.mem⟩

theorem WritesReg.of_advancePc {d : RegNum} {v : Nat} (h : WritesReg d v s.advancePc t) : WritesReg d v s t :=
  ⟨h.dest, h.others, h.rest.of_advancePc⟩

theorem MoveEffect.of_advancePc {d : RegNum} {v : Nat} (h : MoveEffect d v s.advancePc t) : MoveEffect d v s t :=
  ⟨h.reg.of_advancePc, h.zero⟩

end

/-! ### The moves -/

theorem restUnchanged_writeReg (s : State) (d : RegNum) (b : Byte) : RestUnchanged s (s.writeReg d b) :=
  ⟨State.writeReg_sp s d b, State.writeReg_portI s d b, State.writeReg_portQ s d b, State.writeReg_spare s d b,
    State.writeReg_fault s d b, State.writeReg_readMem s d b⟩

/-- A register write is a move of the byte written. -/
theorem moveEffect_writeReg (s : State) (d : RegNum) (b : Byte) : MoveEffect d b.toNat s (s.writeReg d b) where
  reg :=
    { dest := congrArg BitVec.toNat (State.writeReg_readReg_same s d b)
      others := fun _ hk => State.writeReg_readReg_ne s b hk
      rest := restUnchanged_writeReg s d b }
  zero := State.writeReg_zero s d b

/-- A register write on the advanced state, as the effect of the whole step. -/
theorem moveEffect_advancePc_writeReg (s : State) (d : RegNum) (b : Byte) :
    PcPast s (s.advancePc.writeReg d b) ∧ MoveEffect d b.toNat s (s.advancePc.writeReg d b) :=
  ⟨pcPast_of_pc_eq (State.writeReg_pc s.advancePc d b), (moveEffect_writeReg s.advancePc d b).of_advancePc⟩

/-- Settles O11: `movi` is a register write of the immediate, which is the whole second byte of the word. -/
theorem moviLoadsTheImmediate : Obligations.MoviLoadsTheImmediate := by
  refine ⟨?effect, ?step⟩
  case effect =>
    intro d b s
    exact ⟨s.writeReg d b, exec_eq _ _, State.writeReg_pc s d b, moveEffect_writeReg s d b⟩
  case step =>
    intro cfg s d b hm hf
    exact ⟨s.advancePc.writeReg d b, stepUnder_of_fetches hm hf, moveEffect_advancePc_writeReg s d b⟩

/-- Settles O12: `mov` is a register write of what the source held, which the advance of PC does not touch. The source is
read before the write, so `d = r` needs no case of its own. -/
theorem movCopiesTheSource : Obligations.MovCopiesTheSource := by
  refine ⟨?effect, ?step⟩
  case effect =>
    intro d r s
    exact ⟨s.writeReg d (s.readReg r), exec_eq _ _, State.writeReg_pc s d _, moveEffect_writeReg s d _⟩
  case step =>
    intro cfg s d r x hm hf
    exact ⟨s.advancePc.writeReg d (s.readReg r), stepUnder_of_fetches_src hm hf,
      moveEffect_advancePc_writeReg s d _⟩

end Sys2Proof.Claims

/-! SUPPORT. The results of the arithmetic instructions as plain numbers (rule R117 of `42_alu.md`), and the effect of
`writeResult`, in which all of them end (R116). -/

namespace Sys2Proof

/-- A difference of bytes as a number: 256 is added first, so that the subtraction of numbers is exact. -/
theorem Byte.toNat_sub (a b : Byte) : (a - b).toNat = (a.toNat + 256 - b.toNat) % 256 := by
  have hb : b.toNat < 256 := b.isLt
  rw [BitVec.toNat_sub]
  omega

theorem Byte.eq_zero_iff_toNat {a : Byte} : a = 0 ↔ a.toNat = 0 := BitVec.toNat_inj.symm

/-- The one byte whose successor is 0. -/
theorem Byte.add_one_eq_zero_iff {a : Byte} : a + 1 = 0 ↔ a = 0xFF := add_eq_zero_iff_eq_neg

end Sys2Proof

namespace Sys2Proof.Claims

open Sys2Proof.Machine

/-- Z after a result is true exactly when the byte stored is 0. -/
theorem writeResult_zero_iff (s : State) (d : RegNum) (b : Byte) : (s.writeResult d b).zero = true ↔ b = 0 := by
  rw [State.writeResult_zero, beq_iff_eq]

/-- The bits of the destination after a result are those of the byte stored. -/
theorem writeResult_getLsbD (s : State) (d : RegNum) (b : Byte) (n : Nat) :
    ((s.writeResult d b).readReg d).getLsbD n = b.getLsbD n := by
  rw [State.writeResult_readReg_same]

theorem ResultEffect.of_advancePc {s t : State} {d : RegNum} {v : Nat} (h : ResultEffect d v s.advancePc t) :
    ResultEffect d v s t :=
  ⟨h.reg.of_advancePc, h.zero⟩

theorem restUnchanged_writeResult (s : State) (d : RegNum) (b : Byte) : RestUnchanged s (s.writeResult d b) :=
  ⟨State.writeResult_sp s d b, State.writeResult_portI s d b, State.writeResult_portQ s d b,
    State.writeResult_spare s d b, State.writeResult_fault s d b, State.writeResult_readMem s d b⟩

/-- `writeResult` has the effect of a result, of the number `v` that the byte stored stands for. -/
theorem resultEffect_writeResult (s : State) (d : RegNum) {b : Byte} {v : Nat} (hv : b.toNat = v) :
    ResultEffect d v s (s.writeResult d b) where
  reg :=
    { dest := (congrArg BitVec.toNat (State.writeResult_readReg_same s d b)).trans hv
      others := fun _ hk => State.writeResult_readReg_ne s b hk
      rest := restUnchanged_writeResult s d b }
  zero := by rw [writeResult_zero_iff, Byte.eq_zero_iff_toNat, hv]

/-- A result on the advanced state, as the effect of the whole step. -/
theorem resultEffect_advancePc_writeResult (s : State) (d : RegNum) {b : Byte} {v : Nat} (hv : b.toNat = v) :
    PcPast s (s.advancePc.writeResult d b) ∧ ResultEffect d v s (s.advancePc.writeResult d b) :=
  ⟨pcPast_of_pc_eq (State.writeResult_pc s.advancePc d b), (resultEffect_writeResult s.advancePc d hv).of_advancePc⟩

/-! ### The arithmetic and logic instructions

Each effect is `execNext` at its instruction, a `writeResult` of a byte computed from the old registers. Both operands are
read before the write, so `d = r` needs no case of its own. -/

/-- Settles O13: `add` stores the sum of bytes, which is the sum of numbers modulo 256. -/
theorem addAddsModulo256 : Obligations.AddAddsModulo256 := by
  have sum (s : State) (d r : RegNum) := BitVec.toNat_add (s.readReg d) (s.readReg r)
  refine ⟨?effect, ?step⟩
  case effect =>
    intro d r s
    exact ⟨_, exec_eq _ _, State.writeResult_pc s d _, resultEffect_writeResult s d (sum s d r)⟩
  case step =>
    intro cfg s d r x hm hf
    exact ⟨_, stepUnder_of_fetches_src hm hf, resultEffect_advancePc_writeResult s d (sum s d r)⟩

/-- Settles O14: `sub` stores the difference of bytes, which is 0 exactly for equal operands. -/
theorem subSubtractsModulo256 : Obligations.SubSubtractsModulo256 := by
  have difference (s : State) (d r : RegNum) := Byte.toNat_sub (s.readReg d) (s.readReg r)
  refine ⟨?effect, ?step⟩
  case effect =>
    intro d r s
    exact ⟨_, exec_eq _ _, State.writeResult_pc s d _, resultEffect_writeResult s d (difference s d r),
      (writeResult_zero_iff s d _).trans sub_eq_zero⟩
  case step =>
    intro cfg s d r x hm hf
    exact ⟨_, stepUnder_of_fetches_src hm hf, resultEffect_advancePc_writeResult s d (difference s d r)⟩

/-- Settles O15: `and` stores the conjunction of bytes, whose bits and number are those of the operands conjoined. -/
theorem andIsBitwise : Obligations.AndIsBitwise := by
  have conjunction (s : State) (d r : RegNum) := BitVec.toNat_and (s.readReg d) (s.readReg r)
  refine ⟨?effect, ?step⟩
  case effect =>
    intro d r s
    refine ⟨_, exec_eq _ _, State.writeResult_pc s d _, fun n => ?_, resultEffect_writeResult s d (conjunction s d r)⟩
    exact (writeResult_getLsbD s d _ n).trans BitVec.getLsbD_and
  case step =>
    intro cfg s d r x hm hf
    exact ⟨_, stepUnder_of_fetches_src hm hf, resultEffect_advancePc_writeResult s d (conjunction s d r)⟩

/-- Settles O16: `eor` stores the exclusive or of bytes, which is 0 exactly for equal operands. -/
theorem eorIsBitwise : Obligations.EorIsBitwise := by
  have exclusiveOr (s : State) (d r : RegNum) := BitVec.toNat_xor (s.readReg d) (s.readReg r)
  refine ⟨?effect, ?step⟩
  case effect =>
    intro d r s
    refine ⟨_, exec_eq _ _, State.writeResult_pc s d _, fun n => ?_, resultEffect_writeResult s d (exclusiveOr s d r),
      (writeResult_zero_iff s d _).trans BitVec.xor_eq_zero_iff⟩
    exact (writeResult_getLsbD s d _ n).trans BitVec.getLsbD_xor
  case step =>
    intro cfg s d r x hm hf
    exact ⟨_, stepUnder_of_fetches_src hm hf, resultEffect_advancePc_writeResult s d (exclusiveOr s d r)⟩

/-- Settles O17: `inc` stores the successor, which wraps to 0 from 0xFF alone. -/
theorem incAddsOneModulo256 : Obligations.IncAddsOneModulo256 := by
  have successor (s : State) (d : RegNum) := BitVec.toNat_add (s.readReg d) 1
  refine ⟨?effect, ?step⟩
  case effect =>
    intro d s
    exact ⟨_, exec_eq _ _, State.writeResult_pc s d _, resultEffect_writeResult s d (successor s d),
      (writeResult_zero_iff s d _).trans Byte.add_one_eq_zero_iff⟩
  case step =>
    intro cfg s d b hm hf
    exact ⟨_, stepUnder_of_fetches hm hf, resultEffect_advancePc_writeResult s d (successor s d)⟩

/-- Settles O18: `dec` stores the predecessor, 255 more modulo 256, which is 0 after 0x01 alone. -/
theorem decSubtractsOneModulo256 : Obligations.DecSubtractsOneModulo256 := by
  have predecessor (s : State) (d : RegNum) := Byte.toNat_sub (s.readReg d) 1
  refine ⟨?effect, ?step⟩
  case effect =>
    intro d s
    exact ⟨_, exec_eq _ _, State.writeResult_pc s d _, resultEffect_writeResult s d (predecessor s d),
      (writeResult_zero_iff s d _).trans sub_eq_zero⟩
  case step =>
    intro cfg s d b hm hf
    exact ⟨_, stepUnder_of_fetches hm hf, resultEffect_advancePc_writeResult s d (predecessor s d)⟩

/-- Settles O28: the nine instructions with a `zeroDest` end in `writeResult`, which forgets the old Z and takes the new one
from the byte it stored. -/
theorem zeroFlagIsOfTheStoredByte : Obligations.ZeroFlagIsOfTheStoredByte := by
  intro i d hd s z
  refine ⟨_, exec_eq i s, exec_eq_next_iff.2 (execNext_setZero_of_zeroDest hd _ s z), ?_⟩
  rw [execNext_zero_of_zeroDest hd, decide_eq_true_iff, Byte.eq_zero_iff_toNat]

end Sys2Proof.Claims

/-! SUPPORT. The port instructions (rules R120 and R121 of `43_io.md`): `in` is a result whose byte is port I, `out` a write
of port Q alone. -/

namespace Sys2Proof.Claims

open Sys2Proof.Machine

/-- Settles O19: `in` stores the byte of port I as a result, and the frame of a result holds the port itself. -/
theorem inReadsPortI : Obligations.InReadsPortI := by
  refine ⟨?effect, ?step⟩
  case effect =>
    intro d s
    exact ⟨s.writeResult d s.portI, exec_eq _ _, State.writeResult_pc s d _, resultEffect_writeResult s d rfl⟩
  case step =>
    intro cfg s d b hm hf
    exact ⟨s.advancePc.writeResult d s.portI, stepUnder_of_fetches hm hf, resultEffect_advancePc_writeResult s d rfl⟩

theorem RegsUnchanged.of_advancePc {s t : State} (h : RegsUnchanged s.advancePc t) : RegsUnchanged s t :=
  ⟨h.reg, h.zero⟩

theorem OutEffect.of_advancePc {s t : State} {v : Nat} (h : OutEffect v s.advancePc t) : OutEffect v s t :=
  ⟨h.portQ, h.regs.of_advancePc, h.sp, h.portI, h.spare, h.fault, h.mem⟩

/-- A write of port Q has the effect of `out`, of the byte written. -/
theorem outEffect_setPortQ (s : State) (b : Byte) : OutEffect b.toNat s (s.setPortQ b) where
  portQ := congrArg BitVec.toNat (State.setPortQ_portQ s b)
  regs := ⟨State.setPortQ_readReg s b, State.setPortQ_zero s b⟩
  sp := State.setPortQ_sp s b
  portI := State.setPortQ_portI s b
  spare := State.setPortQ_spare s b
  fault := State.setPortQ_fault s b
  mem := State.setPortQ_readMem s b

/-- Settles O20: `out` writes port Q with what the source register held, which the advance of PC does not touch. -/
theorem outWritesPortQ : Obligations.OutWritesPortQ := by
  refine ⟨?effect, ?step⟩
  case effect =>
    intro r s
    exact ⟨s.setPortQ (s.readReg r), exec_eq _ _, State.setPortQ_pc s _, outEffect_setPortQ s _⟩
  case step =>
    intro cfg s y r x hm hf
    exact ⟨s.advancePc.setPortQ (s.readReg r), stepUnder_of_fetches_src hm hf,
      pcPast_of_pc_eq (State.setPortQ_pc s.advancePc _), (outEffect_setPortQ s.advancePc _).of_advancePc⟩

end Sys2Proof.Claims

/-! SUPPORT. The jumps (rules R130 to R132 of `44_control.md`): all three end in `jumpIf`, which changes PC alone. -/

namespace Sys2Proof.Claims

open Sys2Proof.Machine

theorem OnlyPcChanges.of_advancePc {s t : State} (h : OnlyPcChanges s.advancePc t) : OnlyPcChanges s t :=
  ⟨h.regs.of_advancePc, h.rest.of_advancePc⟩

/-- A jump changes nothing but PC, taken or not. -/
theorem onlyPcChanges_jumpIf (s : State) (c : Bool) (o : Byte) : OnlyPcChanges s (s.jumpIf c o) where
  regs := ⟨State.jumpIf_readReg s c o, State.jumpIf_zero s c o⟩
  rest :=
    { sp := State.jumpIf_sp s c o
      portI := State.jumpIf_portI s c o
      portQ := State.jumpIf_portQ s c o
      spare := State.jumpIf_spare s c o
      fault := State.jumpIf_fault s c o
      mem := State.jumpIf_readMem s c o }

theorem onlyPcChanges_advancePc_jumpIf (s : State) (c : Bool) (o : Byte) :
    OnlyPcChanges s (s.advancePc.jumpIf c o) :=
  (onlyPcChanges_jumpIf s.advancePc c o).of_advancePc

theorem jumpIf_pc_toNat (s : State) (c : Bool) (o : Byte) :
    (s.jumpIf c o).pc.toNat = if c then (s.pc.toNat + o.toNat) % 256 else s.pc.toNat := by
  rw [State.jumpIf_pc]
  cases c with
  | true => exact BitVec.toNat_add s.pc o
  | false => rfl

/-- The target of a transfer in a step, from the PC before the advance. -/
theorem advancePc_pc_add_toNat (s : State) (o : Byte) :
    (s.advancePc.pc + o).toNat = (s.pc.toNat + 2 + o.toNat) % 256 := by
  rw [State.advancePc_pc, BitVec.toNat_add, BitVec.toNat_add, Nat.mod_add_mod]
  rfl

/-- PC after the step of a jump that is taken. -/
theorem advancePc_jumpIf_pc_toNat (s : State) {c : Bool} (hc : c = true) (o : Byte) :
    (s.advancePc.jumpIf c o).pc.toNat = (s.pc.toNat + 2 + o.toNat) % 256 := by
  rw [hc, State.jumpIf_pc]
  exact advancePc_pc_add_toNat s o

/-- A jump that is not taken leaves PC at the next instruction. -/
theorem pcPast_advancePc_jumpIf (s : State) {c : Bool} (hc : c = false) (o : Byte) :
    PcPast s (s.advancePc.jumpIf c o) := by
  rw [hc]
  exact pcPast_of_pc_eq (State.jumpIf_pc s.advancePc false o)

/-- The displacement 0xFE, which is -2, takes back the advance of PC (R130). -/
theorem advancePc_jumpIf_self (s : State) : s.advancePc.jumpIf true 0xFE = s := by
  have hpc : s.pc + 2 + 0xFE = s.pc := add_neg_cancel_right s.pc 2
  calc s.advancePc.jumpIf true 0xFE
    _ = s.setPc (s.pc + 2 + 0xFE) := rfl
    _ = s := by rw [hpc]; rfl

/-- Settles O21: `jp` is the jump that is always taken. -/
theorem jpAddsTheDisplacement : Obligations.JpAddsTheDisplacement := by
  refine ⟨?effect, ?step⟩
  case effect =>
    intro o s
    exact ⟨s.jumpIf true o, exec_eq _ _, jumpIf_pc_toNat s true o, onlyPcChanges_jumpIf s true o⟩
  case step =>
    intro cfg s y o hm hf
    refine ⟨s.advancePc.jumpIf true o, stepUnder_of_fetches hm hf, advancePc_jumpIf_pc_toNat s rfl o,
      onlyPcChanges_advancePc_jumpIf s true o, ?_⟩
    rintro rfl
    exact advancePc_jumpIf_self s

/-- Settles O22: `jz` is the jump whose condition is Z, which the advance of PC does not touch. -/
theorem jzJumpsWhenZeroIsSet : Obligations.JzJumpsWhenZeroIsSet := by
  refine ⟨?effect, ?step⟩
  case effect =>
    intro o s
    exact ⟨s.jumpIf s.zero o, exec_eq _ _, jumpIf_pc_toNat s s.zero o, onlyPcChanges_jumpIf s s.zero o⟩
  case step =>
    intro cfg s y o hm hf
    exact ⟨s.advancePc.jumpIf s.zero o, stepUnder_of_fetches hm hf, onlyPcChanges_advancePc_jumpIf s s.zero o,
      fun hz => advancePc_jumpIf_pc_toNat s hz o, fun hz => pcPast_advancePc_jumpIf s hz o⟩

/-- Settles O23: `jnz` is the jump whose condition is the negation of Z. -/
theorem jnzJumpsWhenZeroIsClear : Obligations.JnzJumpsWhenZeroIsClear := by
  refine ⟨?effect, ?step⟩
  case effect =>
    intro o s
    have hpc := jumpIf_pc_toNat s (!s.zero) o
    exact ⟨s.jumpIf (!s.zero) o, exec_eq _ _, hpc.trans (by cases s.zero <;> rfl), onlyPcChanges_jumpIf s _ o⟩
  case step =>
    intro cfg s y o hm hf
    exact ⟨s.advancePc.jumpIf (!s.zero) o, stepUnder_of_fetches hm hf, onlyPcChanges_advancePc_jumpIf s _ o,
      fun hz => advancePc_jumpIf_pc_toNat s (by rw [hz]; rfl) o,
      fun hz => pcPast_advancePc_jumpIf s (by rw [hz]; rfl) o⟩

end Sys2Proof.Claims

/-! SUPPORT. Call and return (rules R133, R134 and R136 of `44_control.md`): `rcall` is a push and a jump, `ret` a pop. -/

namespace Sys2Proof.Machine

/-- Every effect but that of `rcall` keeps memory: the case of `execNext_mem` without its push. -/
theorem execNext_mem_of_ne_rcall {i : Instr} (hcall : ∀ o, i ≠ .rcall o) (v : Bool) (s : State) :
    (execNext v i s).mem = s.mem := by
  rw [execNext_mem]
  split
  · next o => exact absurd rfl (hcall o)
  · rfl

theorem State.jumpIf_withMem (s : State) (m : Memory) (c : Bool) (o : Byte) :
    { s with mem := m }.jumpIf c o = { s.jumpIf c o with mem := m } := by
  simp only [State.jumpIf_eq]; rfl

/-- But for `rcall` and `ret`, another memory before is that memory after, and makes no other difference. -/
theorem execNext_withMem {i : Instr} (hcall : ∀ o, i ≠ .rcall o) (hret : i ≠ .ret) (v : Bool) (s : State) (m : Memory) :
    execNext v i { s with mem := m } = { execNext v i s with mem := m } := by
  cases i with
  | rcall o => exact absurd rfl (hcall o)
  | ret => exact absurd rfl hret
  | jp | jz | jnz => exact State.jumpIf_withMem _ _ _ _
  | movi | mov | add | sub | and | eor | inc | dec | inI | outQ | shl | shr => rfl

end Sys2Proof.Machine

namespace Sys2Proof.Claims

open Sys2Proof.Machine

theorem CallEffect.of_advancePc {s t : State} {r : Nat} (h : CallEffect r s.advancePc t) : CallEffect r s t :=
  ⟨h.sp, h.pushed, h.mem, h.regs.of_advancePc, h.portI, h.portQ, h.spare, h.fault⟩

theorem ReturnEffect.of_advancePc {s t : State} (h : ReturnEffect s.advancePc t) : ReturnEffect s t :=
  ⟨h.pc, h.sp, h.mem, h.regs.of_advancePc, h.portI, h.portQ, h.spare, h.fault⟩

/-- A push and a jump have the effect of a call, of the number `r` that the byte pushed stands for. -/
theorem callEffect_push_jumpIf (s : State) {v : Byte} {r : Nat} (hv : v.toNat = r) (c : Bool) (o : Byte) :
    CallEffect r s ((s.push v).jumpIf c o) where
  sp := by
    rw [State.jumpIf_sp, State.push_sp]
    exact Byte.toNat_sub s.sp 1
  pushed := by
    rw [State.jumpIf_sp, State.push_sp, State.jumpIf_readMem, State.push_readMem, if_pos rfl, hv]
  mem a ha := by
    rw [State.jumpIf_sp, State.push_sp] at ha
    rw [State.jumpIf_readMem, State.push_readMem, if_neg ha]
  regs := ⟨State.jumpIf_readReg (s.push v) c o, State.jumpIf_zero (s.push v) c o⟩
  portI := State.jumpIf_portI (s.push v) c o
  portQ := State.jumpIf_portQ (s.push v) c o
  spare := State.jumpIf_spare (s.push v) c o
  fault := State.jumpIf_fault (s.push v) c o

/-- A pop into PC has the effect of a return. -/
theorem returnEffect_dropTop (s : State) : ReturnEffect s (s.setPc s.top).dropTop where
  pc := State.dropTop_pc (s.setPc s.top)
  sp := BitVec.toNat_add s.sp 1
  mem := State.dropTop_readMem (s.setPc s.top)
  regs := ⟨State.dropTop_readReg (s.setPc s.top), State.dropTop_zero (s.setPc s.top)⟩
  portI := State.dropTop_portI (s.setPc s.top)
  portQ := State.dropTop_portQ (s.setPc s.top)
  spare := State.dropTop_spare (s.setPc s.top)
  fault := State.dropTop_fault (s.setPc s.top)

/-- Settles O24: `rcall` pushes the advanced PC and jumps. The instruction is fetched before the push, so the push may land
on it. -/
theorem rcallPushesTheReturnAddress : Obligations.RcallPushesTheReturnAddress := by
  refine ⟨?effect, ?step⟩
  case effect =>
    intro o s
    exact ⟨(s.push s.pc).jumpIf true o, exec_eq _ _, jumpIf_pc_toNat (s.push s.pc) true o,
      callEffect_push_jumpIf s rfl true o⟩
  case step =>
    intro cfg s y o hm hf
    have hcall := callEffect_push_jumpIf s.advancePc (BitVec.toNat_add s.pc 2) true o
    exact ⟨(s.advancePc.push (s.pc + 2)).jumpIf true o, stepUnder_of_fetches hm hf, advancePc_pc_add_toNat s o,
      hcall.of_advancePc⟩

/-- Settles O25: `ret` pops into PC, and what it pops does not depend on the advance of PC. -/
theorem retPopsThePc : Obligations.RetPopsThePc := by
  refine ⟨?effect, ?step⟩
  case effect =>
    intro s
    exact ⟨(s.setPc s.top).dropTop, exec_eq _ _, returnEffect_dropTop s⟩
  case step =>
    intro cfg s y b hm hf
    exact ⟨_, stepUnder_of_fetches hm hf, (returnEffect_dropTop s.advancePc).of_advancePc⟩

/-- Settles O34: the first two parts are read off from the effects of `rcall` and `ret`; all other effects commute with a
change of SP and with a change of memory. -/
theorem theStackIsTheOnlyData : Obligations.TheStackIsTheOnlyData := by
  obtain ⟨rcall, -⟩ := rcallPushesTheReturnAddress
  obtain ⟨ret, -⟩ := retPopsThePc
  refine ⟨?push, ?pop, ?others⟩
  case push =>
    intro o s
    obtain ⟨t, ht, -, h⟩ := rcall o s
    exact ⟨t, ht, h.sp, BitVec.eq_of_toNat_eq h.pushed, h.mem, h.regs.reg⟩
  case pop =>
    intro s
    obtain ⟨t, ht, h⟩ := ret s
    exact ⟨t, ht, h.pc, h.sp, h.mem, h.regs.reg⟩
  case others =>
    intro i s t hcall hret ht
    obtain rfl := exec_eq_next_iff.1 ht
    have hmem := execNext_mem_of_ne_rcall hcall machineConfig.shiftInverted s
    exact ⟨execNext_sp hcall hret _ s, fun a => congrArg (Memory.read · a) hmem,
      fun m => exec_eq_next_iff.2 (execNext_withMem hcall hret _ s m)⟩

end Sys2Proof.Claims

/-! SUPPORT. The targets of the relative transfers (rules R70, R73 and R135): each is the sum of the advanced PC and the
displacement. -/

namespace Sys2Proof

/-- A sum of bytes is the same whether the second is read unsigned or signed, modulo 256 (R55). -/
theorem Byte.toNat_add_eq_toInt (a b : Byte) : ((a + b).toNat : Int) = ((a.toNat : Int) + b.toInt) % 256 := by
  have hadd : (a + b).toNat = (a.toNat + b.toNat) % 256 := BitVec.toNat_add a b
  rw [BitVec.toInt_eq_toNat_cond]
  split <;> omega

/-- The displacement of the assembler, for the instruction whose advanced PC is `pc`, is the distance from there (R70). -/
theorem displacementTo_sub_two (pc target : Byte) : displacementTo (pc - 2) target = target - pc := by
  unfold displacementTo
  abel

end Sys2Proof

namespace Sys2Proof.Claims

open Sys2Proof.Machine

section
variable {s : State} {f : Byte → Instr}

/-- `jp` and `rcall` are always taken, `jz` when Z is true, `jnz` when Z is false. -/
theorem mem_takenTransfers {z : Bool} :
    f ∈ takenTransfers z ↔ f = .jp ∨ f = .rcall ∨ f = .jz ∧ z = true ∨ f = .jnz ∧ z = false := by
  cases z <;> simp [takenTransfers]

/-- A taken transfer sets PC to the advanced PC plus the displacement (R135). -/
theorem exec_takenTransfer (hf : f ∈ takenTransfers s.zero) (o : Byte) :
    ∃ t, exec (f o) s = .next t ∧ t.pc = s.pc + o := by
  obtain rfl | rfl | ⟨rfl, hz⟩ | ⟨rfl, hz⟩ := mem_takenTransfers.1 hf
  · exact ⟨s.jumpIf true o, exec_eq _ _, State.jumpIf_pc s true o⟩
  · exact ⟨(s.push s.pc).jumpIf true o, exec_eq _ _, State.jumpIf_pc (s.push s.pc) true o⟩
  · exact ⟨s.jumpIf s.zero o, exec_eq _ _, by rw [hz]; exact State.jumpIf_pc s true o⟩
  · exact ⟨s.jumpIf (!s.zero) o, exec_eq _ _, by rw [hz]; exact State.jumpIf_pc s true o⟩

/-- The displacement with which a taken transfer reaches a target is the distance of the target from the advanced PC. -/
theorem takenTransfer_reaches_iff (hf : f ∈ takenTransfers s.zero) {o target : Byte} :
    (∃ t, exec (f o) s = .next t ∧ t.pc = target) ↔ o = target - s.pc := by
  obtain ⟨t, ht, hpc⟩ := exec_takenTransfer hf o
  rw [eq_sub_iff_add_eq']
  constructor
  · rintro ⟨t', ht', rfl⟩
    obtain rfl : t = t' := Host.Outcome.next.inj (ht.symm.trans ht')
    exact hpc.symm
  · rintro rfl
    exact ⟨t, ht, hpc⟩

end

/-- Settles O32: the target is a sum of bytes, so each of its readings is a fact about that sum; subtraction of the advanced
PC inverts it, which gives the one displacement of each target. -/
theorem relativeTransfersReachTheirTarget : Obligations.RelativeTransfersReachTheirTarget := by
  intro s f hf
  refine ⟨fun o => ?target, fun target => ?unique, fun target => ?assembler⟩
  case target =>
    obtain ⟨t, ht, hpc⟩ := exec_takenTransfer hf o
    refine ⟨t, ht, ?_⟩
    rw [hpc]
    refine ⟨BitVec.toNat_add s.pc o, Byte.toNat_add_eq_toInt s.pc o, ?next, ?self, congrArg ShownOperand.target ?shown⟩
    case next =>
      rintro rfl
      exact add_zero s.pc
    case self =>
      rintro rfl
      exact (sub_eq_add_neg s.pc 2).symm
    case shown =>
      show o + (s.pc - 2) + 2 = s.pc + o
      abel
  case unique =>
    exact ⟨target - s.pc, (takenTransfer_reaches_iff hf).2 rfl, fun _ => (takenTransfer_reaches_iff hf).1⟩
  case assembler => exact (takenTransfer_reaches_iff hf).2 (displacementTo_sub_two s.pc target)

end Sys2Proof.Claims

/-! SUPPORT. What stops a step (rule R152 of `60_exceptions.md`): the latch or an unmapped opcode, never an effect. -/

namespace Sys2Proof.Machine

/-- A fetched instruction completes, so a step without a next state fetched none. Under the policy `nop` the second case
does not arise (R151). -/
theorem stepUnder_stopped {cfg : Config} {s : State} (h : ∀ t, stepUnder cfg s ≠ .next t) :
    s.fault = true ∨ ∃ opc, s.fetchUnder cfg.opMap = .unmapped opc := by
  cases hs : s.fault with
  | true => exact .inl rfl
  | false =>
    cases hf : s.fetchUnder cfg.opMap with
    | instr i => exact absurd (stepUnder_of_instr hs hf) (h _)
    | unmapped opc => exact .inr ⟨opc, rfl⟩

theorem step_stopped {s : State} (h : ∀ t, step s ≠ .next t) : s.fault = true ∨ ∃ opc, s.fetch = .unmapped opc := by
  rw [← stepUnder_machineConfig] at h
  exact stepUnder_stopped h

end Sys2Proof.Machine

namespace Sys2Proof.Claims

open Sys2Proof.Machine

/-- Settles O9: every effect is a total function to the next state, so only the latch or the decoder can stop a step. -/
theorem nothingElseFaults : Obligations.NothingElseFaults :=
  ⟨fun i s => ⟨_, exec_eq i s⟩, fun cfg i s => ⟨_, execUnder_eq cfg i s⟩,
    fun _ => step_stopped, fun _ _ => stepUnder_stopped⟩

end Sys2Proof.Claims

/-! SUPPORT. The launch state (rules R170 to R172 of `70_reset_and_hazards.md`): what the first step finds there. -/

namespace Sys2Proof.Machine

/-- Every general register is 0 after reset (R25). -/
theorem State.reset_readReg (k : RegNum) : State.reset.readReg k = 0 :=
  Vector.getElem_replicate k.isLt

/-- A load touches no general register (R171). -/
@[simp] theorem State.load_readReg (image : List Byte) (s : State) (k : RegNum) :
    (s.load image).readReg k = s.readReg k := by
  simp only [State.readReg, State.load_regs]

theorem launch_pc (image : List Byte) : (launch image).pc = 0 := State.load_pc image State.reset

/-- The first advance of PC passes the instruction at address 0. -/
theorem launch_advancePc (image : List Byte) : (launch image).advancePc = { launch image with pc := 2 } := by
  rw [State.advancePc, launch_pc]; rfl

/-- A launch places the image at addresses 0 upward, over memory that is zeroed (R170, R171). -/
theorem launch_readMem {image : List Byte} (h : image.length ≤ 256) (a : Byte) :
    (launch image).readMem a = image[a.toNat]?.getD 0 :=
  State.load_readMem image State.reset a h

/-- The first fetch after a launch decodes the first two bytes of the image. -/
theorem launch_fetch {b0 b1 : Byte} {rest : List Byte} (h : (b0 :: b1 :: rest).length ≤ 256) :
    (launch (b0 :: b1 :: rest)).fetch = decode b0 b1 := by
  have hbyte0 : (launch (b0 :: b1 :: rest)).readMem 0 = b0 := launch_readMem h 0
  have hbyte1 : (launch (b0 :: b1 :: rest)).readMem (0 + 1) = b1 := launch_readMem h 1
  calc (launch (b0 :: b1 :: rest)).fetch
    _ = decode ((launch (b0 :: b1 :: rest)).readMem (launch (b0 :: b1 :: rest)).pc)
          ((launch (b0 :: b1 :: rest)).readMem ((launch (b0 :: b1 :: rest)).pc + 1)) := rfl
    _ = decode b0 b1 := by rw [launch_pc, hbyte0, hbyte1]

end Sys2Proof.Machine

namespace Sys2Proof.Claims

open Sys2Proof.Machine

/-- Settles O41: a load leaves the reset values of all but memory, and the step fetches the first two bytes of the image
with the latch clear. -/
theorem firstStepRunsAddressZero : Obligations.FirstStepRunsAddressZero := by
  intro b0 b1 rest i ⟨_, hlen⟩ hdecode
  refine ⟨launch_pc _, State.load_sp _ State.reset, State.load_zero _ State.reset, fun k => ?registers, ?step⟩
  case registers => exact (State.load_readReg _ State.reset k).trans (State.reset_readReg k)
  case step =>
    have hfault : (launch (b0 :: b1 :: rest)).fault = false := State.load_fault _ State.reset
    rw [step_of_instr hfault ((launch_fetch hlen).trans hdecode), launch_advancePc, exec_eq]

end Sys2Proof.Claims

/-! SUPPORT. Encoding and decoding (rules R51 to R58 of `30_encoding.md`): the encoded form of every instruction, what
decodes to an instruction, and which opcodes are unmapped. -/

namespace Sys2Proof.Laws

/-- The encoded bytes of every instruction carry its opcode and its operands (R51, R54). -/
theorem encodedForm (i : Instr) : EncodedForm.Statement i := by
  cases i with
  | movi d b => exact EncodedForm.movi d b
  | mov d r => exact EncodedForm.mov d r
  | add d r => exact EncodedForm.add d r
  | sub d r => exact EncodedForm.sub d r
  | and d r => exact EncodedForm.and d r
  | eor d r => exact EncodedForm.eor d r
  | inc d => exact EncodedForm.inc d
  | dec d => exact EncodedForm.dec d
  | inI d => exact EncodedForm.inI d
  | outQ r => exact EncodedForm.outQ r
  | jp o => exact EncodedForm.jp o
  | jz o => exact EncodedForm.jz o
  | jnz o => exact EncodedForm.jnz o
  | rcall o => exact EncodedForm.rcall o
  | ret => exact EncodedForm.ret
  | shl d => exact EncodedForm.shl d
  | shr d => exact EncodedForm.shr d

end Sys2Proof.Laws

namespace Sys2Proof

/-- The opcode field of encoded bytes is the opcode of the mnemonic (R51). -/
theorem opcodeField_encodeUnder (m : OpMap) (i : Instr) : opcodeField (encodeUnder m i).1 = m i.mnemonic :=
  (Laws.encodedForm i m).1

/-- The descriptor rebuilds an instruction from the fields of its encoded bytes (R52, R54). -/
theorem instrOf_encodeUnder (m : OpMap) (i : Instr) :
    instrOf i.mnemonic (destField (encodeUnder m i).1) (srcField (encodeUnder m i).2) (encodeUnder m i).2 = i :=
  (Laws.encodedForm i m).2

theorem decodeUnder_encodeUnder {m : OpMap} (h : m.wf) (i : Instr) :
    decodeUnder m (encodeUnder m i).1 (encodeUnder m i).2 = .instr i := by
  rw [decodeUnder_of_opcode h (opcodeField_encodeUnder m i), instrOf_encodeUnder]

/-- A word decodes to an instruction exactly when a mnemonic has its opcode, and then to the one of its fields. -/
theorem decodeUnder_eq_instr {m : OpMap} (h : m.wf) {b0 b1 : Byte} {i : Instr} :
    decodeUnder m b0 b1 = .instr i ↔
      ∃ k, opcodeField b0 = m k ∧ instrOf k (destField b0) (srcField b1) b1 = i := by
  constructor
  · intro e
    unfold decodeUnder at e
    split at e
    next k hk => exact ⟨k, ((lookupOpcode_eq_some h).1 hk).symm, Decoded.instr.inj e⟩
    next => cases e
  · rintro ⟨k, hk, rfl⟩
    exact decodeUnder_of_opcode h hk b1

end Sys2Proof

namespace Sys2Proof.Claims

/-- Settles O1: the encoded bytes carry the opcode, whose mnemonic is unique, and the operands. -/
theorem decodeOfEncodeIsTheInstruction : Obligations.DecodeOfEncodeIsTheInstruction :=
  fun _ hm i _ => decodeUnder_encodeUnder hm i

end Sys2Proof.Claims

/-! SUPPORT. The invariant (rule R22 of `10_state.md`): memory changes only by the writes of a push, which keep its
canonical form. -/

namespace Sys2Proof.Machine

theorem execNext_mem_wf (v : Bool) (i : Instr) {s : State} (h : s.mem.wf) : (execNext v i s).mem.wf := by
  rw [execNext_mem]
  split
  · exact Memory.wf_write h _ _
  · exact h

theorem stepUnder_mem_wf {cfg : Config} {s t : State} (h : s.mem.wf) (ht : stepUnder cfg s = .next t) : t.mem.wf := by
  obtain ⟨-, ⟨i, -, rfl⟩ | ⟨opc, -, -, rfl⟩⟩ := stepUnder_cases ht
  · exact execNext_mem_wf _ i h
  · exact h

/-- No step that gives a next state sets FAULT, and it ran with FAULT clear (R153). -/
theorem stepUnder_next_fault {cfg : Config} {s t : State} (ht : stepUnder cfg s = .next t) : t.fault = false := by
  obtain ⟨hs, ⟨i, -, rfl⟩ | ⟨opc, -, -, rfl⟩⟩ := stepUnder_cases ht
  · exact (execNext_fault _ i _).trans hs
  · exact hs

end Sys2Proof.Machine

namespace Sys2Proof.Claims

open Sys2Proof.Machine

/-- Settles O44: memory by the writes of the stack, the latch because only an unmapped opcode sets it, which gives no next
state. -/
theorem stepsKeepTheInvariant : Obligations.StepsKeepTheInvariant :=
  fun _ _ _ ⟨hmem, _⟩ ht => ⟨stepUnder_mem_wf hmem ht, stepUnder_next_fault ht⟩

/-- Settles O45: memory is the empty list of cells at reset. -/
theorem resetMeetsTheInvariant : Obligations.ResetMeetsTheInvariant := ⟨Memory.wf_reset, rfl⟩

end Sys2Proof.Claims

/-! SUPPORT. Finished states (rule R181, decision D11): the one way a step can give back its state is a taken jump that takes
back the advance of PC. -/

namespace Sys2Proof.Machine

theorem State.ne_of_pc_eq_add_two {s t : State} (h : t.pc = s.pc + 2) : t ≠ s := by
  rintro rfl
  exact absurd (left_eq_add.1 h) (by decide)

theorem State.advancePc_jumpIf_eq_self {s : State} {c : Bool} {o : Byte} :
    s.advancePc.jumpIf c o = s ↔ o = 0xFE ∧ c = true := by
  cases c with
  | false => exact iff_of_false (State.ne_of_pc_eq_add_two (State.jumpIf_pc s.advancePc false o)) (by simp)
  | true =>
    constructor
    · intro h
      have hpc : s.pc + (2 + o) = s.pc := (add_assoc _ _ _).symm.trans (congrArg State.pc h)
      exact ⟨eq_neg_of_add_eq_zero_right (add_eq_left.1 hpc), rfl⟩
    · rintro ⟨rfl, -⟩
      exact Claims.advancePc_jumpIf_self s

/-- An instruction gives back the state it was fetched from exactly when it is a jump to itself: `rcall` and `ret` move SP,
and the others leave PC past the instruction. -/
theorem execNext_advancePc_eq_self (v : Bool) (i : Instr) (s : State) :
    execNext v i s.advancePc = s ↔ selfJump i s.zero = true := by
  cases i with
  | jp o | jz o | jnz o => exact State.advancePc_jumpIf_eq_self.trans (by simp [selfJump])
  | rcall o =>
    refine iff_of_false (fun h => ?_) Bool.false_ne_true
    have hsp : s.sp - 1 = s.sp := (State.jumpIf_sp _ true o).symm.trans (congrArg State.sp h)
    exact absurd (sub_eq_self.1 hsp) (by decide)
  | ret =>
    refine iff_of_false (fun h => ?_) Bool.false_ne_true
    have hsp : s.sp + 1 = s.sp := congrArg State.sp h
    exact absurd (add_eq_left.1 hsp) (by decide)
  | movi | mov | add | sub | and | eor | inc | dec | inI | outQ | shl | shr =>
    exact iff_of_false (State.ne_of_pc_eq_add_two rfl) Bool.false_ne_true

theorem State.finishedUnder_eq_true {m : OpMap} {s : State} :
    s.finishedUnder m = true ↔ s.fault = false ∧ ∃ i, s.fetchUnder m = .instr i ∧ selfJump i s.zero = true := by
  unfold State.finishedUnder
  cases s.fetchUnder m <;> simp

/-- The states a step maps to themselves are the finished ones (R181). -/
theorem stepUnder_eq_self {cfg : Config} {s : State} :
    stepUnder cfg s = .next s ↔ s.finishedUnder cfg.opMap = true := by
  rw [State.finishedUnder_eq_true]
  constructor
  · intro h
    obtain ⟨hs, ⟨i, hi, hself⟩ | ⟨opc, -, -, hself⟩⟩ := stepUnder_cases h
    · exact ⟨hs, i, hi, (execNext_advancePc_eq_self _ i s).1 hself.symm⟩
    · exact absurd hself.symm (State.ne_of_pc_eq_add_two rfl)
  · rintro ⟨hs, i, hi, hself⟩
    rw [stepUnder_of_instr hs hi, (execNext_advancePc_eq_self _ i s).2 hself]

theorem step_eq_self {s : State} : step s = .next s ↔ s.finished = true := by
  rw [← stepUnder_machineConfig]
  exact stepUnder_eq_self

theorem run_eq_self {s : State} (h : step s = .next s) (n : Nat) : Sys2Proof.core.run n s = .next s := by
  induction n with
  | zero => rfl
  | succ n ih => rw [run_succ h, ih]

/-- Steps of a session stay where the first of them stays. -/
theorem session_replicate_step_eq_self {cfg : Config} {p : Platform} (h : Event.apply cfg .step p = some p) (n : Nat) :
    session cfg (List.replicate n .step) p = some p := by
  induction n with
  | zero => rfl
  | succ n ih => exact session_cons.2 ⟨p, h, ih⟩

theorem Event.apply_step_eq_self {cfg : Config} {p : Platform} (h : p.finished cfg = true) :
    Event.apply cfg .step p = some p := by
  cases p with
  | neverReset | fresh => cases h
  | launched s => exact congrArg (some ∘ Platform.launched) (cycleUnder_of_next (stepUnder_eq_self.2 h))

/-- The jumps to themselves among the decoded instructions, by mnemonic and operand byte (R181). -/
theorem selfJump_instrOf {k : Mnemonic} {d r : RegNum} {b : Byte} {z : Bool} :
    selfJump (instrOf k d r b) z = true ↔
      b = 0xFE ∧ (k = .jp ∨ k = .jz ∧ z = true ∨ k = .jnz ∧ z = false) := by
  cases k <;> simp [instrOf, selfJump]

/-- Under a map of unique patterns, what a finished state has at PC. -/
theorem State.finishedUnder_iff_bytes {m : OpMap} (hm : m.wf) {s : State} :
    s.finishedUnder m = true ↔ s.fault = false ∧ s.readMem (s.pc + 1) = 0xFE ∧
      (opcodeField (s.readMem s.pc) = m .jp ∨ opcodeField (s.readMem s.pc) = m .jz ∧ s.zero = true ∨
        opcodeField (s.readMem s.pc) = m .jnz ∧ s.zero = false) := by
  have hfetch (i : Instr) : s.fetchUnder m = .instr i ↔ _ := decodeUnder_eq_instr hm
  rw [State.finishedUnder_eq_true]
  refine and_congr_right fun _ => ⟨?_, ?_⟩
  · rintro ⟨i, hi, hself⟩
    obtain ⟨k, hk, rfl⟩ := (hfetch i).1 hi
    obtain ⟨hb, rfl | ⟨rfl, hz⟩ | ⟨rfl, hz⟩⟩ := selfJump_instrOf.1 hself
    · exact ⟨hb, .inl hk⟩
    · exact ⟨hb, .inr (.inl ⟨hk, hz⟩)⟩
    · exact ⟨hb, .inr (.inr ⟨hk, hz⟩)⟩
  · rintro ⟨hb, hk | ⟨hk, hz⟩ | ⟨hk, hz⟩⟩
    · exact ⟨_, (hfetch _).2 ⟨.jp, hk, rfl⟩, selfJump_instrOf.2 ⟨hb, .inl rfl⟩⟩
    · exact ⟨_, (hfetch _).2 ⟨.jz, hk, rfl⟩, selfJump_instrOf.2 ⟨hb, .inr (.inl ⟨rfl, hz⟩)⟩⟩
    · exact ⟨_, (hfetch _).2 ⟨.jnz, hk, rfl⟩, selfJump_instrOf.2 ⟨hb, .inr (.inr ⟨rfl, hz⟩)⟩⟩

end Sys2Proof.Machine

namespace Sys2Proof.Claims

open Sys2Proof.Machine

/-- Settles O46: finished is being a fixed point of the step, so it stays by induction on the number of steps. -/
theorem finishedStatesAreTheFixedPoints : Obligations.FinishedStatesAreTheFixedPoints :=
  ⟨fun _ _ => stepUnder_eq_self, fun _ => step_eq_self, fun _ n h => run_eq_self (step_eq_self.2 h) n,
    fun _ _ n h => session_replicate_step_eq_self (Event.apply_step_eq_self h) n,
    fun _ _ hm => State.finishedUnder_iff_bytes hm⟩

end Sys2Proof.Claims

/-! SUPPORT. Which words decode (rules R52, R56 and R58 of `30_encoding.md`), and what the disassembler shows (R73). -/

namespace Sys2Proof

/-- Every opcode value once, in rising order. -/
def allOpcodes : List Opcode := (List.range 32).map (BitVec.ofNat 5)

theorem nodup_allOpcodes : allOpcodes.Nodup := by decide

theorem mem_allOpcodes (opc : Opcode) : opc ∈ allOpcodes := by revert opc; decide

/-- An opcode is mapped exactly when the opcode map lists it for a mnemonic. -/
theorem lookupOpcode_isSome_iff {m : OpMap} {opc : Opcode} :
    (lookupOpcode m opc).isSome = true ↔ opc ∈ Mnemonic.all.map m := by
  rw [Option.isSome_iff_ne_none, ne_eq, lookupOpcode_eq_none]
  simp [Mnemonic.mem_all]

/-- The mapped opcodes are those the opcode map lists, each once. -/
theorem mappedOpcodes_perm {m : OpMap} (h : m.wf) :
    (allOpcodes.filter fun opc => (lookupOpcode m opc).isSome).Perm (Mnemonic.all.map m) := by
  refine (List.perm_ext_iff_of_nodup (nodup_allOpcodes.filter _) h).2 fun opc => ?_
  rw [List.mem_filter, lookupOpcode_isSome_iff]
  exact and_iff_right (mem_allOpcodes opc)

/-- The default map takes the opcodes 0 to 16 (decision D1). -/
theorem lookupOpcode_defaultOpMap_eq_none (opc : Opcode) :
    lookupOpcode defaultOpMap opc = none ↔ 17 ≤ opc.toNat := by
  revert opc; decide

/-- The opcode field as a number: the byte without its low 3 bits (R51). -/
theorem opcodeField_toNat (b : Byte) : (opcodeField b).toNat = b.toNat / 8 := by
  have hb : b.toNat < 256 := b.isLt
  rw [opcodeField, BitVec.extractLsb'_toNat, Nat.shiftRight_eq_div_pow]
  omega

end Sys2Proof

namespace Sys2Proof.Machine

open Sys2Proof.Claims (shownOperands)

/-- The operands of the schema, shown from the bytes, are those of the instruction the bytes decode to. -/
theorem map_showOperand_schema (k : Mnemonic) (a b0 b1 : Byte) :
    k.schema.map (showOperand a b0 b1) = shownOperands a (instrOf k (destField b0) (srcField b1) b1) := by
  cases k <;> rfl

theorem State.disassemble_of_opcode {m : OpMap} (h : m.wf) {s : State} {a : Byte} {k : Mnemonic}
    (hk : opcodeField (s.readMem a) = m k) :
    s.disassemble m a = some (k, shownOperands a
      (instrOf k (destField (s.readMem a)) (srcField (s.readMem (a + 1))) (s.readMem (a + 1)))) := by
  rw [disassemble, (lookupOpcode_eq_some h).2 hk.symm, Option.map_some, map_showOperand_schema]

end Sys2Proof.Machine

namespace Sys2Proof.Claims

open Sys2Proof.Machine

/-- Settles O3: the lookup finds the one mnemonic that has the opcode, if there is one. -/
theorem wordsDecodeExactlyWhenMapped : Obligations.WordsDecodeExactlyWhenMapped := by
  refine fun m hm b0 b1 => ⟨fun k hk => ?mapped, fun hnone => ?unmapped⟩
  case mapped => exact ⟨_, decodeUnder_of_opcode hm hk.symm b1, mnemonic_instrOf k _ _ _⟩
  case unmapped => exact decodeUnder_eq_unmapped.2 ⟨rfl, hnone⟩

/-- Settles O4: of the 32 opcodes, 17 are those of the 17 mnemonics. -/
theorem fifteenOpcodesAreUnmapped : Obligations.FifteenOpcodesAreUnmapped := by
  intro m hm
  have hmapped : (allOpcodes.filter fun opc => (lookupOpcode m opc).isSome).length = 17 :=
    (mappedOpcodes_perm hm).length_eq.trans (by rw [List.length_map]; rfl)
  have hunmapped : (allOpcodes.filter fun opc => (lookupOpcode m opc).isNone).length =
      ((List.range 32).filter fun n => (lookupOpcode m (BitVec.ofNat 5 n)).isNone).length := by
    rw [allOpcodes, List.filter_map, List.length_map]; rfl
  have hall : allOpcodes.length = 32 := rfl
  have hsplit := List.length_eq_length_filter_add (l := allOpcodes) fun opc => (lookupOpcode m opc).isSome
  simp only [Option.not_isSome] at hsplit
  omega

/-- Settles O5: the unmapped opcodes of the default map are those from 17 up, and 17 · 8 is 0x88. -/
theorem defaultMapLeaves88UpUnmapped : Obligations.DefaultMapLeaves88UpUnmapped := by
  intro b0 b1
  calc (∃ opc, decode b0 b1 = .unmapped opc)
    _ ↔ ∃ opc, opcodeField b0 = opc ∧ ∀ k, defaultOpMap k ≠ opc := exists_congr fun _ => decodeUnder_eq_unmapped
    _ ↔ ∀ k, defaultOpMap k ≠ opcodeField b0 := exists_eq_left'
    _ ↔ lookupOpcode defaultOpMap (opcodeField b0) = none := lookupOpcode_eq_none.symm
    _ ↔ 17 ≤ (opcodeField b0).toNat := lookupOpcode_defaultOpMap_eq_none _
    _ ↔ 0x88 ≤ b0.toNat := by rw [opcodeField_toNat, Nat.le_div_iff_mul_le (by decide)]

/-- Settles O6: the decoder is run on each word. -/
theorem wordsOfTheSpecDecode : Obligations.WordsOfTheSpecDecode :=
  ⟨rfl, rfl, rfl, rfl, rfl, rfl, rfl, rfl, rfl, rfl, rfl⟩

/-- Settles O49: the disassembler makes the lookup of the decoder, so it shows the instruction that decoding would give. -/
theorem disassemblyShowsTheInstruction : Obligations.DisassemblyShowsTheInstruction := by
  intro m i s a hm hbyte0 hbyte1
  rw [State.disassemble_of_opcode hm (hbyte0 ▸ opcodeField_encodeUnder m i), hbyte0, hbyte1, instrOf_encodeUnder]

end Sys2Proof.Claims

/-! SUPPORT. The step as a whole (rules R80 and R82 of `40_step_cycle.md`, R150 to R153 of `60_exceptions.md`): what it runs,
where it leaves PC (R13), and what an unmapped opcode does. -/

namespace Sys2Proof.Machine

open Sys2Proof.Claims

/-- A step that fetches an instruction runs its effect on the state with PC advanced (R80). -/
theorem step_eq_exec {s : State} {i : Instr} (h : s.fault = false) (hf : s.fetch = .instr i) :
    step s = exec i s.advancePc := by
  rw [step_of_instr h hf, exec_eq]

theorem stepUnder_eq_execUnder {cfg : Config} {s : State} {i : Instr} (h : s.fault = false)
    (hf : s.fetchUnder cfg.opMap = .instr i) : stepUnder cfg s = execUnder cfg i s.advancePc := by
  rw [stepUnder_of_instr h hf, execUnder_eq]

theorem step_of_fault {s : State} (h : s.fault = true) : step s = .fault .faultLatched :=
  (stepUnder_machineConfig s).symm.trans (stepUnder_of_fault machineConfig h)

theorem cycle_of_fault {s : State} (h : s.fault = true) : cycle s = s := cycleUnder_of_fault machineConfig h

theorem cycles_of_fault {s : State} (h : s.fault = true) (n : Nat) : cycles n s = s := by
  induction n with
  | zero => rfl
  | succ n ih => rw [cycles, cycle_of_fault h, ih]

theorem stepUnder_of_unmapped_fault {cfg : Config} {s : State} {opc : Opcode} (hp : cfg.illegalPolicy = .fault)
    (h : s.fault = false) (hf : s.fetchUnder cfg.opMap = .unmapped opc) :
    stepUnder cfg s = .fault (.illegalOpcode s.pc (s.readMem s.pc)) := by
  rw [stepUnder_of_unmapped h hf, hp]; rfl

theorem stepUnder_of_unmapped_nop {cfg : Config} {s : State} {opc : Opcode} (hp : cfg.illegalPolicy = .nop)
    (h : s.fault = false) (hf : s.fetchUnder cfg.opMap = .unmapped opc) : stepUnder cfg s = .next s.advancePc := by
  rw [stepUnder_of_unmapped h hf, hp]; rfl

/-- Where each effect leaves PC, from the state before the step (R13). -/
theorem execNext_advancePc_pc_toNat (v : Bool) (i : Instr) (s : State) :
    (execNext v i s.advancePc).pc.toNat = pcAfter i s := by
  have past : PcPast s s.advancePc := pcPast_of_pc_eq rfl
  cases i with
  | jp o | rcall o => exact advancePc_pc_add_toNat s o
  | jz o =>
    show (s.advancePc.jumpIf s.zero o).pc.toNat = _
    rw [pcAfter]
    cases hz : s.zero with
    | true => exact advancePc_pc_add_toNat s o
    | false => exact past
  | jnz o =>
    show (s.advancePc.jumpIf (!s.zero) o).pc.toNat = _
    rw [pcAfter]
    cases hz : s.zero with
    | true => exact past
    | false => exact advancePc_pc_add_toNat s o
  | ret => rfl
  | movi | mov | add | sub | and | eor | inc | dec | inI | outQ | shl | shr => exact past

end Sys2Proof.Machine

namespace Sys2Proof.Claims

open Sys2Proof.Machine

/-- The advance of PC changes nothing but PC. -/
theorem onlyPcChanges_advancePc (s : State) : OnlyPcChanges s s.advancePc where
  regs := ⟨State.advancePc_readReg s, State.advancePc_zero s⟩
  rest :=
    { sp := State.advancePc_sp s
      portI := State.advancePc_portI s
      portQ := State.advancePc_portQ s
      spare := State.advancePc_spare s
      fault := State.advancePc_fault s
      mem := State.advancePc_readMem s }

/-- Settles O7: the branches of the step, in their order: the latch, an instruction, an unmapped opcode. -/
theorem stepRunsTheDecodedInstruction : Obligations.StepRunsTheDecodedInstruction := by
  refine ⟨fun s => ⟨?latch, fun hs => ⟨?instr, ?unmapped⟩⟩,
    fun cfg s => ⟨?latchUnder, fun hs => ⟨?instrUnder, ?unmappedUnder⟩⟩⟩
  case latch => exact fun hs => ⟨step_of_fault hs, cycle_of_fault hs⟩
  case instr => exact fun i hi => step_eq_exec hs hi
  case unmapped =>
    intro opc hopc
    have hstep := step_of_unmapped hs hopc
    exact ⟨hstep, cycle_of_illegalOpcode hstep⟩
  case latchUnder => exact fun hs => ⟨stepUnder_of_fault cfg hs, cycleUnder_of_fault cfg hs⟩
  case instrUnder => exact fun i hi => stepUnder_eq_execUnder hs hi
  case unmappedUnder =>
    intro opc hp hopc
    have hstep := stepUnder_of_unmapped_fault hp hs hopc
    exact ⟨hstep, cycleUnder_of_illegalOpcode hstep⟩

/-- Settles O10: every effect gives a next state, and PC in it is tabled effect by effect. -/
theorem eachInstructionLeavesPcAsTabled : Obligations.EachInstructionLeavesPcAsTabled :=
  fun cfg s i hs hi => ⟨_, stepUnder_of_instr hs hi, execNext_advancePc_pc_toNat cfg.shiftInverted i s⟩

/-- Settles O37: the first of the steps sets the latch, and the others find it set. -/
theorem illegalOpcodeLatchesAndStops : Obligations.IllegalOpcodeLatchesAndStops := by
  intro s opc hs hopc
  have hstep := step_of_unmapped hs hopc
  have hcycles (n : Nat) : cycles (n + 1) s = s.latchFault := by
    rw [cycles, cycle_of_illegalOpcode hstep, cycles_of_fault (State.latchFault_fault s)]
  refine ⟨hstep, fun n => ⟨hcycles n, step_of_fault ?_⟩⟩
  rw [hcycles n, State.latchFault_fault]

/-- Settles O39: the step is the advance of PC alone. -/
theorem nopPolicySkipsUnmappedOpcodes : Obligations.NopPolicySkipsUnmappedOpcodes :=
  fun _ s _ hp hs hopc =>
    ⟨s.advancePc, stepUnder_of_unmapped_nop hp hs hopc, pcPast_of_pc_eq rfl, onlyPcChanges_advancePc s⟩

/-- Settles O47: the call leaves A + 2 at the SP it lowered by 1, and the return takes PC from there and raises SP by 1. -/
theorem returnComesBackFromCall : Obligations.ReturnComesBackFromCall := by
  intro s t u o hcall ht hu hret hsp hbyte
  obtain ⟨hs, -⟩ := step_cases ht
  obtain ⟨t', ht', hsp', hpushed⟩ := exec_rcall_stack o s.advancePc
  obtain rfl : t = t' := Host.Outcome.next.inj (ht.symm.trans ((step_eq_exec hs hcall).trans ht'))
  obtain ⟨v, hv, hpc, hspv⟩ := exec_ret_stack u.advancePc
  refine ⟨hpushed, v, (step_eq_exec hu hret).trans hv, ?pc, ?sp⟩
  case pc => exact hpc.trans (hbyte.trans hpushed)
  case sp =>
    calc v.sp
      _ = u.sp + 1 := hspv
      _ = s.sp - 1 + 1 := by rw [hsp, hsp', State.advancePc_sp]
      _ = s.sp := sub_add_cancel s.sp 1

/-- Settles O48: the fetch reads memory, and the pushed byte is there. -/
theorem nextFetchSeesThePushedByte : Obligations.NextFetchSeesThePushedByte := by
  intro o s t ht
  obtain ⟨t', ht', hsp, hpushed⟩ := exec_rcall_stack o s
  obtain rfl : t = t' := Host.Outcome.next.inj (ht.symm.trans ht')
  rw [hsp] at hpushed
  exact ⟨fun h => (congrArg t.readMem h).trans hpushed, fun h => (congrArg t.readMem h).trans hpushed⟩

end Sys2Proof.Claims

/-! SUPPORT. The shifts (rules R140 to R142 of `45_shift.md`) and the signed reading of the arithmetic (`42_alu.md` section
1): the bytes stored, as numbers. -/

namespace Sys2Proof.Machine

theorem left1_toNat (v : Byte) : (left1 v).toNat = v.toNat * 2 % 256 := by
  rw [left1, BitVec.toNat_shiftLeft, Nat.shiftLeft_eq]

theorem right1_toNat (v : Byte) : (right1 v).toNat = v.toNat / 2 := by
  rw [right1, BitVec.toNat_ushiftRight, Nat.shiftRight_eq_div_pow]

/-- The byte stored by `shl`, under either setting (R140). -/
theorem shlByte_toNat (inverted : Bool) (v : Byte) :
    (if inverted then right1 v else left1 v).toNat = if inverted then v.toNat / 2 else v.toNat * 2 % 256 := by
  rw [apply_ite BitVec.toNat, right1_toNat, left1_toNat]

/-- The byte stored by `shr`, under either setting (R141). -/
theorem shrByte_toNat (inverted : Bool) (v : Byte) :
    (if inverted then left1 v else right1 v).toNat = if inverted then v.toNat * 2 % 256 else v.toNat / 2 := by
  rw [apply_ite BitVec.toNat, right1_toNat, left1_toNat]

end Sys2Proof.Machine

namespace Sys2Proof.Claims

open Sys2Proof.Machine

/-- Settles O26: `shl` stores its byte as a result, at the default setting the one shifted right. -/
theorem shlShiftsRightWhenInverted : Obligations.ShlShiftsRightWhenInverted := by
  refine ⟨?effect, ?step⟩
  case effect =>
    intro d s
    exact ⟨_, exec_eq _ _, State.writeResult_pc s d _, resultEffect_writeResult s d (right1_toNat (s.readReg d))⟩
  case step =>
    intro cfg s d b hm hf
    exact ⟨_, stepUnder_of_fetches hm hf,
      resultEffect_advancePc_writeResult s d (shlByte_toNat cfg.shiftInverted (s.readReg d))⟩

/-- Settles O27: `shr` stores its byte as a result, at the default setting the one shifted left. -/
theorem shrShiftsLeftWhenInverted : Obligations.ShrShiftsLeftWhenInverted := by
  refine ⟨?effect, ?step⟩
  case effect =>
    intro d s
    exact ⟨_, exec_eq _ _, State.writeResult_pc s d _, resultEffect_writeResult s d (left1_toNat (s.readReg d))⟩
  case step =>
    intro cfg s d b hm hf
    exact ⟨_, stepUnder_of_fetches hm hf,
      resultEffect_advancePc_writeResult s d (shrByte_toNat cfg.shiftInverted (s.readReg d))⟩

/-- A signed result within -128 to 127 is not changed by the wrap to 8 bits. -/
theorem bmod_256_of_mem_range {n : Int} (hlow : -128 ≤ n) (hhigh : n ≤ 127) : n.bmod 256 = n :=
  Int.bmod_eq_of_le hlow (by omega)

/-- The destination after a result, read as a signed number. -/
theorem writeResult_toInt (s : State) (d : RegNum) {b : Byte} {n : Int} (hb : b.toInt = n) :
    ((s.writeResult d b).readReg d).toInt = n := by
  rw [State.writeResult_readReg_same, hb]

/-- Settles O30: sums and differences of bytes are those of the signed readings, wrapped. -/
theorem arithmeticIsTwosComplementToo : Obligations.ArithmeticIsTwosComplementToo := by
  intro d r s
  refine ⟨⟨_, exec_eq _ _, ?add⟩, ⟨_, exec_eq _ _, ?sub⟩, ⟨_, exec_eq _ _, ?inc⟩, ⟨_, exec_eq _ _, ?dec⟩⟩
  case add =>
    have hsum := writeResult_toInt s d (BitVec.toInt_add (s.readReg d) (s.readReg r))
    exact ⟨hsum, fun hlow hhigh => hsum.trans (bmod_256_of_mem_range hlow hhigh)⟩
  case sub =>
    have hdiff := writeResult_toInt s d (BitVec.toInt_sub (x := s.readReg d) (y := s.readReg r))
    exact ⟨hdiff, fun hlow hhigh => hdiff.trans (bmod_256_of_mem_range hlow hhigh)⟩
  case inc => exact writeResult_toInt s d (BitVec.toInt_add (s.readReg d) 1)
  case dec => exact writeResult_toInt s d (BitVec.toInt_sub (x := s.readReg d) (y := 1))

end Sys2Proof.Claims

/-! SUPPORT. What the effects use of the state (`10_state.md` sections 2 and 6, `20_memory.md` section 2): how each meets
another value in a general register, a port, SPARE or memory. -/

namespace Sys2Proof.Machine

open Sys2Proof.Claims

/-! ### General registers -/

theorem State.writeReg_writeReg_same (s : State) (k : RegNum) (v w : Byte) :
    (s.writeReg k v).writeReg k w = s.writeReg k w := by
  simp [State.writeReg]

theorem State.writeReg_comm (s : State) {k d : RegNum} (h : k ≠ d) (v w : Byte) :
    (s.writeReg k v).writeReg d w = (s.writeReg d w).writeReg k v := by
  have hn : k.toNat ≠ d.toNat := fun e => h (BitVec.eq_of_toNat_eq e)
  simp [State.writeReg, Vector.set_comm _ _ hn]

theorem State.writeResult_eq (s : State) (d : RegNum) (w : Byte) :
    s.writeResult d w = (s.writeReg d w).setZero (w == 0) := by
  rw [State.writeResult, State.recomputeZero, State.writeReg_readReg_same]; rfl

theorem State.writeReg_writeResult_same (s : State) (d : RegNum) (v w : Byte) :
    (s.writeReg d v).writeResult d w = s.writeResult d w := by
  rw [State.writeResult_eq, State.writeResult_eq, State.writeReg_writeReg_same]

theorem State.writeReg_writeResult_comm (s : State) {k d : RegNum} (h : k ≠ d) (v w : Byte) :
    (s.writeReg k v).writeResult d w = (s.writeResult d w).writeReg k v := by
  rw [State.writeResult_eq, State.writeResult_eq, State.writeReg_comm s h]; rfl

/-- A jump commutes with every change of the state that keeps PC and does not depend on it. -/
theorem State.jumpIf_comm {f : State → State} {s : State} (hpc : (f s).pc = s.pc)
    (hset : ∀ p, (f s).setPc p = f (s.setPc p)) (c : Bool) (o : Byte) : (f s).jumpIf c o = f (s.jumpIf c o) := by
  rw [State.jumpIf_eq, State.jumpIf_eq, hpc, hset]

/-- An instruction writes no register but those it is tabled to write (R11). -/
theorem execNext_readReg_of_notMem {i : Instr} {k : RegNum} (h : k ∉ regWrites i) (v : Bool) (s : State) :
    (execNext v i s).readReg k = s.readReg k := by
  cases i with
  | movi d | mov d => exact State.writeReg_readReg_ne s _ (List.ne_of_not_mem_cons h)
  | add d | sub d | and d | eor d | inc d | dec d | inI d | shl d | shr d =>
    exact State.writeResult_readReg_ne s _ (List.ne_of_not_mem_cons h)
  | jp | jz | jnz | rcall => exact State.jumpIf_readReg _ _ _ _
  | outQ | ret => rfl

section
variable {i : Instr} {k : RegNum} (v : Bool) (s : State) (b : Byte)

/-- Another value in a register that the instruction writes without reading it is lost. -/
theorem execNext_writeReg_of_mem (hread : k ∉ regReads i) (hwrite : k ∈ regWrites i) :
    execNext v i (s.writeReg k b) = execNext v i s := by
  cases i with
  | movi d =>
    obtain rfl := List.mem_singleton.1 hwrite
    exact State.writeReg_writeReg_same s k b _
  | mov d r =>
    obtain rfl := List.mem_singleton.1 hwrite
    have hr : r ≠ k := (List.ne_of_not_mem_cons hread).symm
    rw [execNext, State.writeReg_readReg_ne s b hr]
    exact State.writeReg_writeReg_same s k b _
  | inI d =>
    obtain rfl := List.mem_singleton.1 hwrite
    exact State.writeReg_writeResult_same s k b _
  | add d | sub d | and d | eor d | inc d | dec d | shl d | shr d =>
    obtain rfl := List.mem_singleton.1 hwrite
    exact absurd List.mem_cons_self hread
  | outQ | jp | jz | jnz | rcall | ret => cases hwrite

/-- Another value in a register that the instruction neither reads nor writes stays there, and makes no other difference. -/
theorem execNext_writeReg_of_notMem (hread : k ∉ regReads i) (hwrite : k ∉ regWrites i) :
    execNext v i (s.writeReg k b) = (execNext v i s).writeReg k b := by
  have read (r : RegNum) (hr : r ∈ regReads i) : (s.writeReg k b).readReg r = s.readReg r :=
    State.writeReg_readReg_ne s b fun e => hread (e ▸ hr)
  cases i with
  | movi => exact State.writeReg_comm s (List.ne_of_not_mem_cons hwrite) b _
  | mov d r =>
    rw [execNext, read r (.head _)]
    exact State.writeReg_comm s (List.ne_of_not_mem_cons hwrite) b _
  | add d r | sub d r | and d r | eor d r =>
    rw [execNext, read d (.head _), read r (.tail _ (.head _))]
    exact State.writeReg_writeResult_comm s (List.ne_of_not_mem_cons hwrite) b _
  | inc d | dec d =>
    rw [execNext, read d (.head _)]
    exact State.writeReg_writeResult_comm s (List.ne_of_not_mem_cons hwrite) b _
  | shl d | shr d =>
    simp only [execNext, State.shlUnder, State.shrUnder, operandD, read d (.head _)]
    exact State.writeReg_writeResult_comm s (List.ne_of_not_mem_cons hwrite) b _
  | inI => exact State.writeReg_writeResult_comm s (List.ne_of_not_mem_cons hwrite) b _
  | outQ r =>
    rw [execNext, read r (.head _)]
    rfl
  | jz | jnz => exact State.jumpIf_comm (f := (·.writeReg k b)) rfl (fun _ => rfl) _ _
  | jp | rcall | ret => rfl

end

/-! ### Ports and SPARE -/

section
variable (v : Bool) (s : State) (b : Byte)

/-- Another SPARE is that SPARE after, and makes no other difference. -/
theorem execNext_withSpare (i : Instr) : execNext v i { s with spare := b } = { execNext v i s with spare := b } := by
  cases i with
  | jz | jnz => exact State.jumpIf_comm (f := fun t => { t with spare := b }) rfl (fun _ => rfl) _ _
  | movi | mov | add | sub | and | eor | inc | dec | inI | outQ | jp | rcall | ret | shl | shr => rfl

/-- But for `in`, another byte at port I is that byte after, and makes no other difference. -/
theorem execNext_setPortI {i : Instr} (hin : ∀ d, i ≠ .inI d) :
    execNext v i (s.setPortI b) = (execNext v i s).setPortI b := by
  cases i with
  | inI d => exact absurd rfl (hin d)
  | jz | jnz => exact State.jumpIf_comm (f := (·.setPortI b)) rfl (fun _ => rfl) _ _
  | movi | mov | add | sub | and | eor | inc | dec | outQ | jp | rcall | ret | shl | shr => rfl

/-- But for `out`, another byte at port Q is that byte after, and makes no other difference. -/
theorem execNext_setPortQ {i : Instr} (hout : ∀ r, i ≠ .outQ r) :
    execNext v i (s.setPortQ b) = (execNext v i s).setPortQ b := by
  cases i with
  | outQ r => exact absurd rfl (hout r)
  | jz | jnz => exact State.jumpIf_comm (f := (·.setPortQ b)) rfl (fun _ => rfl) _ _
  | movi | mov | add | sub | and | eor | inc | dec | inI | jp | rcall | ret | shl | shr => rfl

end

/-- But for `out`, port Q is kept: the case of `execNext_setPortQ` where the other byte is the old one. -/
theorem execNext_portQ {i : Instr} (hout : ∀ r, i ≠ .outQ r) (v : Bool) (s : State) :
    (execNext v i s).portQ = s.portQ :=
  calc (execNext v i s).portQ
    _ = ((execNext v i s).setPortQ s.portQ).portQ := congrArg State.portQ (execNext_setPortQ v s s.portQ hout)
    _ = s.portQ := State.setPortQ_portQ _ _

end Sys2Proof.Machine

namespace Sys2Proof.Claims

open Sys2Proof.Machine

/-- Settles O31: a write to a register the instruction does not read is lost if the instruction writes it, and else stays. -/
theorem instructionsUseOnlyTheirRegisters : Obligations.InstructionsUseOnlyTheirRegisters := by
  intro i s t ht
  obtain rfl := exec_eq_next_iff.1 ht
  refine ⟨fun k hk => execNext_readReg_of_notMem hk _ s, fun k v hread => ⟨_, exec_eq i _, ?_⟩⟩
  by_cases hwrite : k ∈ regWrites i
  · rw [execNext_writeReg_of_mem _ s v hread hwrite]
    exact ⟨fun _ _ => rfl, rfl⟩
  · rw [execNext_writeReg_of_notMem _ s v hread hwrite]
    refine ⟨fun j hj => State.writeReg_readReg_ne _ v ?_, rfl⟩
    rcases hj with hj | hj
    · exact hj
    · exact fun e => hwrite (e ▸ hj)

/-- Settles O36: every effect commutes with a change of SPARE, all but `in` with one of port I, all but `out` with one of
port Q; and `out` gives the same state whatever port Q held. -/
theorem portsAndSpareHaveNoOtherUse : Obligations.PortsAndSpareHaveNoOtherUse := by
  intro i s t ht
  obtain rfl := exec_eq_next_iff.1 ht
  refine ⟨execNext_portI _ i s, execNext_spare _ i s, fun hout => execNext_portQ hout _ s, ?spare, ?portQ, ?portI⟩
  case spare => exact fun v => exec_eq_next_iff.2 (execNext_withSpare _ s v i)
  case portQ =>
    intro v
    by_cases hout : ∀ r, i ≠ .outQ r
    · exact ⟨v, exec_eq_next_iff.2 (execNext_setPortQ _ s v hout)⟩
    · obtain ⟨r, rfl⟩ := not_forall_not.1 hout
      exact ⟨s.readReg r, exec_eq _ _⟩
  case portI => exact fun hin v => exec_eq_next_iff.2 (execNext_setPortI _ s v hin)

end Sys2Proof.Claims

/-! SUPPORT. What a step uses of memory (`20_memory.md` sections 2 and 5): two states that differ only in memory. -/

namespace Sys2Proof.Machine

/-- A fetch reads the byte at PC and, if its opcode is mapped, the next one. -/
theorem State.fetchUnder_withMem {opMap : OpMap} {s : State} {m : Memory} (hbyte0 : m.read s.pc = s.readMem s.pc)
    (hbyte1 : (∃ i, s.fetchUnder opMap = .instr i) → m.read (s.pc + 1) = s.readMem (s.pc + 1)) :
    { s with mem := m }.fetchUnder opMap = s.fetchUnder opMap := by
  have hfetch : { s with mem := m }.fetchUnder opMap = decodeUnder opMap (s.readMem s.pc) (m.read (s.pc + 1)) :=
    congrArg (decodeUnder opMap · (m.read (s.pc + 1))) hbyte0
  cases hf : s.fetchUnder opMap with
  | instr i =>
    rw [hfetch, hbyte1 ⟨i, hf⟩]
    exact hf
  | unmapped opc => exact hfetch.trans (decodeUnder_eq_unmapped.2 (decodeUnder_eq_unmapped.1 hf))

/-- Of memory an effect reads the byte at SP, and that for `ret` alone: another memory makes no difference outside memory
if it agrees there. -/
theorem execNext_withMem_eq {i : Instr} {s : State} {m : Memory} (htop : i = .ret → m.read s.sp = s.readMem s.sp)
    (v : Bool) : execNext v i { s with mem := m } =
      { execNext v i s with mem := (execNext v i { s with mem := m }).mem } := by
  by_cases hcall : ∃ o, i = .rcall o
  · obtain ⟨o, rfl⟩ := hcall; rfl
  by_cases hret : i = .ret
  · subst hret
    have htop : { s with mem := m }.top = s.top := htop rfl
    rw [execNext, execNext, htop]; rfl
  · rw [execNext_withMem (not_exists.1 hcall) hret]

/-- After `rcall` the byte below the old SP is the advanced PC, and every other byte is as it was (R133). -/
theorem execNext_rcall_readMem (v : Bool) (o : Byte) (s : State) (a : Byte) :
    (execNext v (.rcall o) s).readMem a = if a = s.sp - 1 then s.pc else s.readMem a :=
  (State.jumpIf_readMem (s.push s.pc) true o a).trans (State.push_readMem s s.pc a)

end Sys2Proof.Machine

namespace Sys2Proof.Claims

open Sys2Proof.Machine

/-- Settles O35: both states fetch the same. An instruction then has the same effect outside memory, and in memory only the
push of `rcall`; an unmapped opcode faults, or is skipped, alike. -/
theorem stepsTouchOnlyTheTabledBytes : Obligations.StepsTouchOnlyTheTabledBytes := by
  intro cfg s m hs hbyte0 hbyte1 htop
  have hfetch := State.fetchUnder_withMem hbyte0 hbyte1
  have hs' : { s with mem := m }.fault = false := hs
  cases hf : s.fetchUnder cfg.opMap with
  | instr i =>
    have hstep := stepUnder_of_instr hs hf
    have hstep' := stepUnder_of_instr hs' (hfetch.trans hf)
    refine ⟨fun f h => (nomatch hstep.symm.trans h), fun t ht => ?_⟩
    obtain rfl := Host.Outcome.next.inj (hstep.symm.trans ht)
    refine ⟨_, hstep', execNext_withMem_eq (s := s.advancePc) (fun e => htop (by rw [hf, e])) _, ?rcall, ?others⟩
    case rcall =>
      intro o ho a
      obtain rfl := Decoded.instr.inj ho
      exact execNext_rcall_readMem _ o { s with mem := m }.advancePc a
    case others =>
      intro hcall a
      have hmem := execNext_mem_of_ne_rcall (fun o e => hcall o (congrArg Decoded.instr e)) cfg.shiftInverted
        { s with mem := m }.advancePc
      exact congrArg (Memory.read · a) hmem
  | unmapped opc =>
    cases hp : cfg.illegalPolicy with
    | fault =>
      have hstep := stepUnder_of_unmapped_fault hp hs hf
      have hstep' := stepUnder_of_unmapped_fault hp hs' (hfetch.trans hf)
      refine ⟨fun f h => ?_, fun t ht => nomatch hstep.symm.trans ht⟩
      rw [← h, hstep, hstep']
      exact congrArg (Host.Outcome.fault <| Fault.illegalOpcode s.pc ·) hbyte0
    | nop =>
      have hstep := stepUnder_of_unmapped_nop hp hs hf
      have hstep' := stepUnder_of_unmapped_nop hp hs' (hfetch.trans hf)
      refine ⟨fun f h => (nomatch hstep.symm.trans h), fun t ht => ?_⟩
      obtain rfl := Host.Outcome.next.inj (hstep.symm.trans ht)
      exact ⟨_, hstep', rfl, fun _ ho => (nomatch ho), fun _ _ => rfl⟩

end Sys2Proof.Claims

/-! SUPPORT. What an event makes of the state (rules R170, R171 and R179 of `70_reset_and_hazards.md`), said as a function of
the state, so that what a session keeps is read off from it. -/

namespace Sys2Proof.Machine

open Sys2Proof.Claims

/-- What an event that is taken makes of the state; a reset and a launch do not look at it. -/
def Event.stateAfter (cfg : Config) (s : State) : Event → State
  | .step => cycleUnder cfg s
  | .reset => State.reset
  | .load image => s.load image
  | .launch image => Sys2Proof.Machine.launch image
  | .setPortI v => s.setPortI v
  | .edit d => s.edit d

/-- An event that is taken leaves its `stateAfter`. A machine that was never reset takes only a reset or a launch, so which
state stands in for the missing one does not matter. -/
theorem Event.apply_state? {cfg : Config} {e : Event} {p q : Platform} (h : e.apply cfg p = some q) :
    q.state? = some (e.stateAfter cfg (p.state?.getD State.reset)) := by
  obtain ⟨s, rfl, rfl, rfl⟩ | ⟨rfl, rfl⟩ | ⟨image, s, rfl, -, rfl, rfl⟩ | ⟨image, rfl, -, rfl⟩ | ⟨v, rfl, h⟩ |
    ⟨d, rfl, -, h⟩ := Event.apply_cases h
  · rfl
  · rfl
  · rfl
  · rfl
  all_goals obtain ⟨s, rfl, rfl⟩ | ⟨s, rfl, rfl⟩ := Platform.onState_eq_some.1 h <;> rfl

/-- A session leaves its events' `stateAfter`, one after the other. -/
theorem session_state? {cfg : Config} {es : List Event} {p q : Platform} {s : State} (hs : p.state? = some s)
    (h : session cfg es p = some q) : q.state? = some (es.foldl (Event.stateAfter cfg) s) := by
  induction es generalizing p s with
  | nil => cases h; exact hs
  | cons e es ih =>
    obtain ⟨r, hr, h⟩ := session_cons.1 h
    have hrs := Event.apply_state? hr
    rw [hs] at hrs
    exact ih hrs h

/-- A property of the state that each event of a list keeps, the list keeps. -/
theorem foldl_stateAfter_keeps {cfg : Config} {P : State → Prop} {es : List Event}
    (hevent : ∀ e ∈ es, ∀ s, P s → P (e.stateAfter cfg s)) {s : State} (hs : P s) :
    P (es.foldl (Event.stateAfter cfg) s) := by
  induction es generalizing s with
  | nil => exact hs
  | cons e es ih =>
    exact ih (fun e' he' => hevent e' (List.mem_cons_of_mem e he')) (hevent e List.mem_cons_self s hs)

theorem Event.apply_of_not_allowed {cfg : Config} {e : Event} (h : e.allowed cfg = false) (p : Platform) :
    e.apply cfg p = none :=
  if_neg (ne_true_of_eq_false h)

theorem session_allowed {cfg : Config} {es : List Event} {p q : Platform} (h : session cfg es p = some q) {e : Event}
    (he : e ∈ es) : e.allowed cfg = true := by
  induction es generalizing p with
  | nil => cases he
  | cons e' es ih =>
    obtain ⟨r, hr, h⟩ := session_cons.1 h
    rcases List.mem_cons.1 he with rfl | he
    · by_contra hne
      rw [Event.apply_of_not_allowed (Bool.eq_false_iff.2 hne)] at hr
      cases hr
    · exact ih h he

/-! ### What events keep -/

theorem cycleUnder_mem_wf (cfg : Config) {s : State} (h : s.mem.wf) : (cycleUnder cfg s).mem.wf := by
  rcases cycleUnder_cases cfg s with hstep | hlatch | hsame
  · exact stepUnder_mem_wf h hstep
  · rwa [hlatch]
  · rwa [hsame]

/-- Every event leaves memory in its canonical form. -/
theorem Event.stateAfter_mem_wf (cfg : Config) (e : Event) {s : State} (h : s.mem.wf) :
    (e.stateAfter cfg s).mem.wf := by
  cases e with
  | step => exact cycleUnder_mem_wf cfg h
  | reset => exact Memory.wf_reset
  | load image => exact State.load_wf image h
  | launch image => exact State.load_wf image Memory.wf_reset
  | setPortI v => exact h
  | edit d => exact State.edit_wf h d

/-- Only a reset, or the reset of a launch, clears the latch (R154). -/
theorem Event.stateAfter_fault (cfg : Config) {e : Event} (he : keepsRunning e = true) {s : State}
    (h : s.fault = true) : (e.stateAfter cfg s).fault = true := by
  cases e with
  | step => exact (congrArg State.fault (cycleUnder_of_fault cfg h)).trans h
  | load image => exact (State.load_fault image s).trans h
  | setPortI v => exact h
  | edit d => exact (State.edit_fault s d).trans h
  | reset | launch => cases he

/-- But for a reset, a launch and an edit, no event writes SPARE (R20). -/
theorem Event.stateAfter_spare (cfg : Config) {e : Event} (he : keepsRunning e = true) (hedit : ∀ d, e ≠ .edit d)
    (s : State) : (e.stateAfter cfg s).spare = s.spare := by
  cases e with
  | step => exact cycleUnder_spare cfg s
  | load image => exact State.load_spare image s
  | setPortI v => rfl
  | edit d => exact absurd rfl (hedit d)
  | reset | launch => cases he

theorem State.edit_portI (s : State) (d : HostEdit) : (s.edit d).portI = s.portI := by
  cases d <;> rfl

/-- What a list of events leaves at port I: what the host last set there, or 0 by a later reset (R18). -/
theorem foldl_stateAfter_portI (cfg : Config) (es : List Event) (s : State) :
    (es.foldl (Event.stateAfter cfg) s).portI = portIAfter es s.portI := by
  induction es generalizing s with
  | nil => rfl
  | cons e es ih =>
    refine (ih _).trans ?_
    cases e with
    | step => exact congrArg (portIAfter es) (cycleUnder_portI cfg s)
    | load image => exact congrArg (portIAfter es) (State.load_portI image s)
    | launch image => exact congrArg (portIAfter es) (State.load_portI image State.reset)
    | edit d => exact congrArg (portIAfter es) (State.edit_portI s d)
    | reset | setPortI => rfl

end Sys2Proof.Machine

namespace Sys2Proof.Claims

open Sys2Proof.Machine

/-- Settles O38: no event but a reset or a launch clears a set latch. -/
theorem onlyResetClearsFault : Obligations.OnlyResetClearsFault := by
  refine ⟨fun cfg es p q s hs hfault hall hq => ⟨_, session_state? hs hq, ?_⟩, fun _ _ => rfl, rfl⟩
  exact foldl_stateAfter_keeps (P := (·.fault = true))
    (fun e he t => Event.stateAfter_fault cfg (List.all_eq_true.1 hall e he)) hfault

/-- Settles O40: each field is read off from the reset state. -/
theorem resetZeroesEverything : Obligations.ResetZeroesEverything :=
  ⟨State.reset_readReg, rfl, rfl, rfl, rfl, rfl, rfl, rfl, fun _ => rfl⟩

/-- At the default configuration no edit is allowed, so no session that was taken has one (decision D12). -/
theorem edit_notMem_of_session {es : List Event} {p q : Platform} (h : session machineConfig es p = some q)
    (d : HostEdit) : Event.edit d ∉ es :=
  fun hd => nomatch session_allowed h hd

/-- Settles O43: port I is followed event by event, and SPARE is written by none of the events that are taken between
resets. -/
theorem hostSetsOnlyPortI : Obligations.HostSetsOnlyPortI := by
  refine ⟨fun _ _ _ => ⟨rfl, rfl⟩, ?portI, ?spare, ?edit⟩
  case portI =>
    intro es p q s hs hq
    exact ⟨_, session_state? hs hq, foldl_stateAfter_portI machineConfig es s⟩
  case spare =>
    intro es p q s hs hall hq
    refine ⟨_, session_state? hs hq, foldl_stateAfter_keeps (P := (·.spare = s.spare)) (fun e he t ht => ?_) rfl⟩
    have hedit (d : HostEdit) : e ≠ .edit d := by
      rintro rfl
      exact edit_notMem_of_session hq d he
    exact (Event.stateAfter_spare machineConfig (List.all_eq_true.1 hall e he) hedit t).trans ht
  case edit =>
    intro es p d hd
    exact Option.eq_none_iff_forall_ne_some.2 fun q hq => edit_notMem_of_session hq d hd

/-- Settles O52: by the event in the state it finds, which for a machine that was never reset plays no part, and so along
every session. -/
theorem eventsKeepMemoryCanonical : Obligations.EventsKeepMemoryCanonical := by
  have hevent (cfg : Config) (e : Event) (p q : Platform) (hp : ∀ s, p.state? = some s → s.mem.wf)
      (hq : Event.apply cfg e p = some q) (t : State) (ht : q.state? = some t) : t.mem.wf := by
    have hwf : (p.state?.getD State.reset).mem.wf := by
      cases hs : p.state? with
      | none => exact Memory.wf_reset
      | some s => exact hp s hs
    obtain rfl : e.stateAfter cfg (p.state?.getD State.reset) = t :=
      Option.some.inj ((Event.apply_state? hq).symm.trans ht)
    exact Event.stateAfter_mem_wf cfg e hwf
  refine ⟨fun cfg e p q t hp hq => hevent cfg e p q hp hq t, fun cfg s ⟨es, hes⟩ => ?_⟩
  exact session_keeps (P := fun p => ∀ s, p.state? = some s → s.mem.wf) (p := .neverReset) (hevent cfg)
    (fun _ h => nomatch h) hes s rfl

end Sys2Proof.Claims

/-! SUPPORT. Launch and load (rules R170 to R173 of `70_reset_and_hazards.md`), and how a run came to be launched. -/

namespace Sys2Proof.Machine

open Sys2Proof.Claims

theorem Event.apply_launch {image : List Byte} (h : imageWf image) (cfg : Config) (p : Platform) :
    Event.apply cfg (.launch image) p = some (.launched (Sys2Proof.Machine.launch image)) :=
  if_pos (decide_eq_true h)

theorem Event.apply_load {image : List Byte} (h : imageWf image) (cfg : Config) (p : Platform) :
    Event.apply cfg (.load image) p = p.load image :=
  if_pos (decide_eq_true h)

/-- A machine that was never reset takes a reset or a launch and nothing else (R173, U11). -/
theorem Event.apply_neverReset {e : Event} (hreset : e ≠ .reset) (hlaunch : ∀ image, e ≠ .launch image) (cfg : Config) :
    e.apply cfg .neverReset = none := by
  cases e with
  | reset => exact absurd rfl hreset
  | launch image => exact absurd rfl (hlaunch image)
  | step | load | setPortI | edit => exact ite_self none

/-- A launched machine is not loaded again, whatever the image. -/
theorem Event.apply_load_launched (cfg : Config) (image : List Byte) (s : State) :
    Event.apply cfg (.load image) (.launched s) = none :=
  ite_self none

/-- An image written after port I was set is the image written before. -/
theorem State.setPortI_writeImage (image : List Byte) (s : State) (v a : Byte) :
    (s.setPortI v).writeImage a image = (s.writeImage a image).setPortI v := by
  induction image generalizing s a with
  | nil => rfl
  | cons b image ih => exact ih (s.writeMem a b) (a + 1)

/-- The events of a machine that was reset and not loaded since. -/
def FreshHistory (es : List Event) : Prop :=
  ∃ before between, between.all keepsFresh = true ∧ es = before ++ .reset :: between

/-- The events of a machine that was launched, by a launch or by a load after a reset, and runs since. -/
def LaunchedHistory (es : List Event) : Prop :=
  ∃ before image since, imageWf image ∧ since.all keepsLaunched = true ∧
    (es = before ++ .launch image :: since ∨
      ∃ between, between.all keepsFresh = true ∧ es = before ++ .reset :: between ++ .load image :: since)

theorem FreshHistory.append {es : List Event} (h : FreshHistory es) {e : Event} (he : keepsFresh e = true) :
    FreshHistory (es ++ [e]) := by
  obtain ⟨before, between, hall, rfl⟩ := h
  exact ⟨before, between ++ [e], by simp [hall, he], by simp⟩

theorem LaunchedHistory.append {es : List Event} (h : LaunchedHistory es) {e : Event} (he : keepsLaunched e = true) :
    LaunchedHistory (es ++ [e]) := by
  obtain ⟨before, image, since, himage, hall, h⟩ := h
  refine ⟨before, image, since ++ [e], himage, by simp [hall, he], ?_⟩
  obtain rfl | ⟨between, hbetween, rfl⟩ := h
  · exact .inl (by simp)
  · exact .inr ⟨between, hbetween, by simp⟩

/-- A reset begins anew. -/
theorem FreshHistory.of_reset (es : List Event) : FreshHistory (es ++ [.reset]) := ⟨es, [], rfl, rfl⟩

theorem LaunchedHistory.of_launch (es : List Event) {image : List Byte} (h : imageWf image) :
    LaunchedHistory (es ++ [.launch image]) :=
  ⟨es, image, [], h, rfl, .inl rfl⟩

theorem FreshHistory.load {es : List Event} (h : FreshHistory es) {image : List Byte} (himage : imageWf image) :
    LaunchedHistory (es ++ [.load image]) := by
  obtain ⟨before, between, hall, rfl⟩ := h
  exact ⟨before, image, [], himage, rfl, .inr ⟨between, hall, rfl⟩⟩

/-- What is known of the events from power-on by the phase they lead to. -/
def Platform.History (es : List Event) : Platform → Prop
  | .neverReset => True
  | .fresh _ => FreshHistory es
  | .launched _ => LaunchedHistory es

/-- An action on the state extends the history of its phase. -/
theorem Platform.History.onState {es : List Event} {p q : Platform} (h : p.History es) {e : Event}
    (hfresh : keepsFresh e = true) (hlaunched : keepsLaunched e = true) {f : State → State}
    (hq : p.onState f = some q) : q.History (es ++ [e]) := by
  obtain ⟨s, rfl, rfl⟩ | ⟨s, rfl, rfl⟩ := Platform.onState_eq_some.1 hq
  · exact FreshHistory.append h hfresh
  · exact LaunchedHistory.append h hlaunched

theorem Platform.History.apply {cfg : Config} {es : List Event} {e : Event} {p q : Platform} (h : p.History es)
    (hq : e.apply cfg p = some q) : q.History (es ++ [e]) := by
  obtain ⟨s, rfl, rfl, rfl⟩ | ⟨rfl, rfl⟩ | ⟨image, s, rfl, himage, rfl, rfl⟩ | ⟨image, rfl, himage, rfl⟩ |
    ⟨v, rfl, hq⟩ | ⟨d, rfl, -, hq⟩ := Event.apply_cases hq
  · exact LaunchedHistory.append h rfl
  · exact FreshHistory.of_reset es
  · exact FreshHistory.load h himage
  · exact LaunchedHistory.of_launch es himage
  · exact h.onState rfl rfl hq
  · exact h.onState rfl rfl hq

theorem history_of_session {cfg : Config} {es : List Event} {p : Platform}
    (h : session cfg es .neverReset = some p) : p.History es := by
  induction es using List.reverseRecOn generalizing p with
  | nil => cases h; trivial
  | append_singleton es e ih =>
    rw [session_append] at h
    obtain ⟨r, hr, h⟩ := Option.bind_eq_some_iff.1 h
    obtain ⟨q, hq, h⟩ := session_cons.1 h
    obtain rfl : q = p := Option.some.inj h
    exact (ih hr).apply hq

end Sys2Proof.Machine

namespace Sys2Proof.Claims

open Sys2Proof.Machine

/-- Settles O42: a launch loads the image into the reset state, whatever machine it finds. -/
theorem launchKeepsNothingOfBefore : Obligations.LaunchKeepsNothingOfBefore := by
  refine fun cfg image p => ⟨fun h => ⟨launch image, Event.apply_launch h cfg p, fun a => ?bytes, ?rest, ?canonical⟩,
    fun h => Event.apply_of_not_allowed (e := .launch image) (decide_eq_false h) p⟩
  case bytes => exact (launch_readMem h.2 a).trans List.getD_eq_getElem?_getD.symm
  case rest => exact State.load_eq image State.reset
  case canonical => exact State.load_wf image Memory.wf_reset

/-- Settles O50: the history of the phase grows event by event, and a machine without a state refuses all but a reset and a
launch. -/
theorem runsBeginWithResetAndLoad : Obligations.RunsBeginWithResetAndLoad :=
  ⟨fun cfg _ hreset hlaunch => Event.apply_neverReset hreset hlaunch cfg, fun _ _ => rfl,
    fun _ _ _ h => history_of_session h⟩

/-- Settles O51: a load writes the image over the memory it finds, which commutes with setting port I. -/
theorem loadChangesMemoryAlone : Obligations.LoadChangesMemoryAlone := by
  intro cfg image
  refine ⟨fun h => ⟨fun s => ⟨s.load image, Event.apply_load h cfg _, State.load_eq image s, fun a => ?bytes⟩,
      fun p v => ?portI⟩, session_reset_load cfg image, ?neverReset, Event.apply_load_launched cfg image,
    fun h p => ?image⟩
  case bytes => exact (State.load_readMem image s a h.2).trans List.getD_eq_getElem?_getD.symm
  case portI =>
    have hload := congrArg (fun t => some (Platform.launched t)) (State.setPortI_writeImage image State.reset v 0)
    exact session_cons.2 ⟨_, rfl, session_cons.2 ⟨_, rfl, session_cons.2 ⟨_, Event.apply_load h cfg _, hload⟩⟩⟩
  case neverReset => exact Event.apply_neverReset (e := .load image) (by simp) (by simp) cfg
  case image => exact Event.apply_of_not_allowed (e := .load image) (decide_eq_false h) p

end Sys2Proof.Claims
